-- ==== Sys2Proof/Word.lean ====
section
/-! DEFINITION. The two value widths of the machine (spec 00_scope.md R5, R9): a register, the status byte and a
memory cell are 8 bits; an address and the program counter are 16 bits. Addition on them is modulo 256 and modulo
65536, as R101 (41_flag_engine_alu.md) and R26 (10_state.md) ask. -/

namespace Sys2Proof

/-- An 8-bit value: a general register, the status byte, a memory cell, an opcode or operand byte (R5). -/
abbrev Byte := BitVec 8

/-- A 16-bit value: an address or the program counter (R5). -/
abbrev Word := BitVec 16

end Sys2Proof
end

