-- ==== Sys2Proof/Config.lean ====
section
/-! DEFINITION. What is fixed for one machine and is not state (spec 00_scope.md R6, 10_state.md R31): the shape of the
opcode metadata table `OPTABLE`, the closed sets of mnemonics and addressing-mode tags it names, the parameter record,
and the fixed addresses. The default VALUES of the parameters stand in Decode.lean (`defaultTable`) and in
Machine/Params.lean (`Params.default`). The machine needs no free value: "Nothing in the machine yields `any value`"
(93_implementation_defined.md). -/

namespace Sys2Proof

/-- The six mnemonics of R3: "Dispatch is over closed sets: six mnemonics and ten mode tags" (46_execution_loop.md R164). -/
inductive Mnemonic where
  | lda
  | sta
  | tax
  | inx
  | adc
  | brk
  deriving DecidableEq, Repr

/-- The ten addressing-mode tags of 40_addressing_modes.md R80. -/
inductive Mode where
  | immediate
  | zeroPage
  | absolute
  | zeroPageX
  | zeroPageY
  | absoluteX
  | absoluteY
  | indirectX
  | indirectY
  | noneAddressing
  deriving DecidableEq, Repr

/-- A `cycle_count` entry of R64: the base count and whether the table marks it `+1`. Data that no rule depends on
(70_reset_and_hazards.md R212). -/
structure Cycles where
  base : Nat
  plusOne : Bool
  deriving DecidableEq, Repr

/-- One record of the Opcode Metadata Provider: mnemonic, addressing mode, byte length, cycle count (00_scope.md R8, R12). -/
structure OpRecord where
  mnemonic : Mnemonic
  mode : Mode
  length : Nat
  cycles : Cycles
  deriving DecidableEq, Repr

/-- `OPTABLE` (R6): a partial map from opcode byte to record, as a list of rows; the first row of a byte counts. -/
abbrev OpTable := List (Byte × OpRecord)

/-- A record as an external provider supplies it, its mnemonic still text (30_encoding.md R71 case (e)). -/
structure RawRecord where
  mnemonic : String
  mode : Mode
  length : Nat
  cycles : Cycles
  deriving DecidableEq, Repr

/-- The named parameters of R6 that may vary: `OPTABLE`, `BRK_STACK_EFFECTS`, `SP_RESET`. -/
structure Params where
  optable : OpTable
  brkStackEffects : Bool
  spReset : Byte
  deriving DecidableEq, Repr

/-- `ROM_BASE` of R6: first address of program ROM and the load address. -/
def Config.romBase : Word := 0x8000#16

/-- `RESET_VECTOR` of R6: address of the low byte of the reset vector. -/
def Config.resetVector : Word := 0xFFFC#16

/-- Address of the low byte of the BRK vector, used only under `BRK_STACK_EFFECTS` (20_memory.md R48, R152). -/
def Config.brkVector : Word := 0xFFFE#16

/-- First address of the stack page, used only under `BRK_STACK_EFFECTS` (10_state.md R29). -/
def Config.stackPage : Word := 0x0100#16

/-- The longest program image `load` accepts (70_reset_and_hazards.md R204). -/
def Config.maxImage : Nat := 0x8000

end Sys2Proof
end

