-- ==== Sys2Proof/Syntax.lean ====
section
/-! DEFINITION. The instructions: one constructor for each of the 26 rows of spec/opcode_table.json (30_encoding.md R64).
A constructor carries the operand its format encodes (R60, R62): nothing for `F1`, the operand byte `b1` for `F2`, the
16-bit operand made of `b2` (high) and `b1` (low) for `F3`. -/

namespace Sys2Proof

/-- The instruction set of R64. Named mnemonic first, then the addressing mode where the mnemonic has several. -/
inductive Instr where
  | ldaImmediate (b1 : Byte)
  | ldaZeroPage (b1 : Byte)
  | ldaZeroPageX (b1 : Byte)
  | ldaAbsolute (operand : Word)
  | ldaAbsoluteX (operand : Word)
  | ldaAbsoluteY (operand : Word)
  | ldaIndirectX (b1 : Byte)
  | ldaIndirectY (b1 : Byte)
  | staZeroPage (b1 : Byte)
  | staZeroPageX (b1 : Byte)
  | staAbsolute (operand : Word)
  | staAbsoluteX (operand : Word)
  | staAbsoluteY (operand : Word)
  | staIndirectX (b1 : Byte)
  | staIndirectY (b1 : Byte)
  | tax
  | inx
  | adcImmediate (b1 : Byte)
  | adcZeroPage (b1 : Byte)
  | adcZeroPageX (b1 : Byte)
  | adcAbsolute (operand : Word)
  | adcAbsoluteX (operand : Word)
  | adcAbsoluteY (operand : Word)
  | adcIndirectX (b1 : Byte)
  | adcIndirectY (b1 : Byte)
  | brk
  deriving DecidableEq, Repr

end Sys2Proof
end

