-- ==== Sys2Proof/WellFormed.lean ====
section
/-! DEFINITION. Well-formedness. An instruction has no ill-formed value: "Operand bytes are unconstrained: every value
0x00..0xFF of `b1` and `b2` is legal for every format" (30_encoding.md R68), and the types of Instr's fields hold
exactly those values. What can be ill-formed is an opcode table: R71 lists the deviations from the default that a
custom table may show, and each is a check here. -/

namespace Sys2Proof

/-- Every instruction is well formed (R68); the predicate exists so that statements can name it. -/
def Instr.wf (_ : Instr) : Bool := true

/-- The operand bytes a mode's formula reads at `pc` (30_encoding.md R63). -/
def Mode.operandBytes : Mode → Nat
  | .noneAddressing => 0
  | .immediate => 1
  | .zeroPage => 1
  | .zeroPageX => 1
  | .zeroPageY => 1
  | .indirectX => 1
  | .indirectY => 1
  | .absolute => 2
  | .absoluteX => 2
  | .absoluteY => 2

/-- The operand-consuming instructions of the glossary (00_scope.md R12): LDA, STA, ADC. -/
def Mnemonic.consumesOperand : Mnemonic → Bool
  | .lda => true
  | .sta => true
  | .adc => true
  | .tax => false
  | .inx => false
  | .brk => false

/-- `length = 1 + operand bytes` (R63); a record that fails it is R71 case (c). -/
def OpRecord.lengthAgrees (e : OpRecord) : Bool := e.length == 1 + e.mode.operandBytes

/-- A record has an operand mode exactly when its instruction consumes an operand; the deviations are R71 cases (a), (b). -/
def OpRecord.modeAgrees (e : OpRecord) : Bool :=
  e.mnemonic.consumesOperand == (e.mode != .noneAddressing)

/-- STA has no Immediate form (R64); a record that gives it one is R71 case (d). -/
def OpRecord.storesToMemory (e : OpRecord) : Bool :=
  !(e.mnemonic == .sta && e.mode == .immediate)

/-- No opcode byte has two rows: `OPTABLE` is a map (R6). -/
def OpTable.distinctKeys : OpTable → Bool
  | [] => true
  | r :: t => t.all (fun q => r.1 != q.1) && distinctKeys t

/-- A table of the default's kind: a map, and every record agrees with its mode and its mnemonic. -/
def OpTable.wf (t : OpTable) : Bool :=
  OpTable.distinctKeys t &&
    t.all (fun r => r.2.lengthAgrees && r.2.modeAgrees && r.2.storesToMemory)

end Sys2Proof
end

