-- ==== Sys2Proof/Decode.lean ====
section
/-! DEFINITION. Bytes and instructions: the byte-order helpers, the default `OPTABLE` (30_encoding.md R64), the decoder
(total on any bytes, rejecting by name), and after it the encoder. The forms the decoder builds and the metadata rows
are two transcriptions of R64; that they agree is stated (the step of the decoder and the step of the table are one
function), as R164 asks of a dispatch table. -/

namespace Sys2Proof

/-- `zext_16(v)` of R10. -/
def zext16 (v : Byte) : Word := v.setWidth 16

/-- `{hi, lo}` of R10: `hi * 256 + lo`. -/
def mkWord (hi lo : Byte) : Word := hi ++ lo

/-- `v[7:0]` of R10. -/
def lowByte (v : Word) : Byte := v.extractLsb' 0 8

/-- `v[15:8]` of R10. -/
def highByte (v : Word) : Byte := v.extractLsb' 8 8

/-- `OPTABLE(b)`: the record of an opcode byte, or none (R10). -/
def OpTable.lookup : OpTable → Byte → Option OpRecord
  | [], _ => none
  | r :: t, op => if r.1 = op then some r.2 else lookup t op

/-- One row of R64: opcode, mnemonic, mode, length, cycles, and whether the cycle count is marked `+1`. -/
def opRow (op : Byte) (m : Mnemonic) (mode : Mode) (length cycles : Nat) (plusOne : Bool := false) :
    Byte × OpRecord :=
  (op, ⟨m, mode, length, ⟨cycles, plusOne⟩⟩)

/-- R64, the rows of BRK, TAX and INX. -/
def tableOthers : OpTable :=
  [opRow 0x00#8 .brk .noneAddressing 1 7,
   opRow 0xAA#8 .tax .noneAddressing 1 2,
   opRow 0xE8#8 .inx .noneAddressing 1 2]

/-- R64, the rows of ADC. -/
def tableAdc : OpTable :=
  [opRow 0x61#8 .adc .indirectX 2 6,
   opRow 0x65#8 .adc .zeroPage 2 3,
   opRow 0x69#8 .adc .immediate 2 2,
   opRow 0x6D#8 .adc .absolute 3 4,
   opRow 0x71#8 .adc .indirectY 2 5 true,
   opRow 0x75#8 .adc .zeroPageX 2 4,
   opRow 0x79#8 .adc .absoluteY 3 4 true,
   opRow 0x7D#8 .adc .absoluteX 3 4 true]

/-- R64, the rows of STA. -/
def tableSta : OpTable :=
  [opRow 0x81#8 .sta .indirectX 2 6,
   opRow 0x85#8 .sta .zeroPage 2 3,
   opRow 0x8D#8 .sta .absolute 3 4,
   opRow 0x91#8 .sta .indirectY 2 6,
   opRow 0x95#8 .sta .zeroPageX 2 4,
   opRow 0x99#8 .sta .absoluteY 3 5,
   opRow 0x9D#8 .sta .absoluteX 3 5]

/-- R64, the rows of LDA. -/
def tableLda : OpTable :=
  [opRow 0xA1#8 .lda .indirectX 2 6,
   opRow 0xA5#8 .lda .zeroPage 2 3,
   opRow 0xA9#8 .lda .immediate 2 2,
   opRow 0xAD#8 .lda .absolute 3 4,
   opRow 0xB1#8 .lda .indirectY 2 5 true,
   opRow 0xB5#8 .lda .zeroPageX 2 4,
   opRow 0xB9#8 .lda .absoluteY 3 4 true,
   opRow 0xBD#8 .lda .absoluteX 3 4 true]

/-- The default `OPTABLE`: the 26 rows of R64. -/
def defaultTable : OpTable := tableOthers ++ tableAdc ++ tableSta ++ tableLda

/-- The mnemonic a provider's text names, letter for letter; none for a mnemonic outside the six of R3. -/
def Mnemonic.ofText (text : String) : Option Mnemonic :=
  if text = "LDA" then some .lda
  else if text = "STA" then some .sta
  else if text = "TAX" then some .tax
  else if text = "INX" then some .inx
  else if text = "ADC" then some .adc
  else if text = "BRK" then some .brk
  else none

/-- Reading a provider's table: "a mnemonic other than the six of 00_scope.md rule R3 has no semantics in this spec and
such a table is refused" (30_encoding.md R71 case (e)). The error is the first offending mnemonic. -/
def OpTable.ofRaw : List (Byte × RawRecord) → Except String OpTable
  | [] => .ok []
  | (op, r) :: rest =>
    match Mnemonic.ofText r.mnemonic, ofRaw rest with
    | none, _ => .error r.mnemonic
    | some _, .error e => .error e
    | some m, .ok t => .ok ((op, ⟨m, r.mode, r.length, r.cycles⟩) :: t)

/-- Why bytes do not decode. -/
inductive DecodeError where
  /-- The opcode byte has no row in R64 (R67). -/
  | unrecognizedOpcode (op : Byte)
  /-- The list of bytes ends inside the instruction. The model's own: memory never ends (log entry 11). -/
  | truncated
  deriving DecidableEq, Repr

/-- What a row of R64 builds from the two bytes after its opcode; `F1` rows take neither, `F2` rows the first (R60, R62). -/
abbrev InstrForm := Byte → Byte → Instr

/-- R64 read as a decoder, BRK, TAX and INX. -/
def formsOthers : List (Byte × InstrForm) :=
  [(0x00#8, fun _ _ => .brk),
   (0xAA#8, fun _ _ => .tax),
   (0xE8#8, fun _ _ => .inx)]

/-- R64 read as a decoder, ADC. -/
def formsAdc : List (Byte × InstrForm) :=
  [(0x61#8, fun b1 _ => .adcIndirectX b1),
   (0x65#8, fun b1 _ => .adcZeroPage b1),
   (0x69#8, fun b1 _ => .adcImmediate b1),
   (0x6D#8, fun b1 b2 => .adcAbsolute (mkWord b2 b1)),
   (0x71#8, fun b1 _ => .adcIndirectY b1),
   (0x75#8, fun b1 _ => .adcZeroPageX b1),
   (0x79#8, fun b1 b2 => .adcAbsoluteY (mkWord b2 b1)),
   (0x7D#8, fun b1 b2 => .adcAbsoluteX (mkWord b2 b1))]

/-- R64 read as a decoder, STA. -/
def formsSta : List (Byte × InstrForm) :=
  [(0x81#8, fun b1 _ => .staIndirectX b1),
   (0x85#8, fun b1 _ => .staZeroPage b1),
   (0x8D#8, fun b1 b2 => .staAbsolute (mkWord b2 b1)),
   (0x91#8, fun b1 _ => .staIndirectY b1),
   (0x95#8, fun b1 _ => .staZeroPageX b1),
   (0x99#8, fun b1 b2 => .staAbsoluteY (mkWord b2 b1)),
   (0x9D#8, fun b1 b2 => .staAbsoluteX (mkWord b2 b1))]

/-- R64 read as a decoder, LDA. -/
def formsLda : List (Byte × InstrForm) :=
  [(0xA1#8, fun b1 _ => .ldaIndirectX b1),
   (0xA5#8, fun b1 _ => .ldaZeroPage b1),
   (0xA9#8, fun b1 _ => .ldaImmediate b1),
   (0xAD#8, fun b1 b2 => .ldaAbsolute (mkWord b2 b1)),
   (0xB1#8, fun b1 _ => .ldaIndirectY b1),
   (0xB5#8, fun b1 _ => .ldaZeroPageX b1),
   (0xB9#8, fun b1 b2 => .ldaAbsoluteY (mkWord b2 b1)),
   (0xBD#8, fun b1 b2 => .ldaAbsoluteX (mkWord b2 b1))]

/-- The form an opcode byte selects: "all eight bits together select the row" (R60). -/
def findForm : List (Byte × InstrForm) → Byte → Option InstrForm
  | [], _ => none
  | r :: t, op => if r.1 = op then some r.2 else findForm t op

/-- Decode an opcode byte with the two bytes that follow it in memory, as many of them as its format uses. -/
def decodeOp (op b1 b2 : Byte) : Except DecodeError Instr :=
  match findForm (formsOthers ++ formsAdc ++ formsSta ++ formsLda) op with
  | none => .error (.unrecognizedOpcode op)
  | some form => .ok (form b1 b2)

/-- Length in bytes of each instruction (R64). -/
def Instr.length : Instr → Nat
  | .ldaImmediate _ => 2
  | .ldaZeroPage _ => 2
  | .ldaZeroPageX _ => 2
  | .ldaAbsolute _ => 3
  | .ldaAbsoluteX _ => 3
  | .ldaAbsoluteY _ => 3
  | .ldaIndirectX _ => 2
  | .ldaIndirectY _ => 2
  | .staZeroPage _ => 2
  | .staZeroPageX _ => 2
  | .staAbsolute _ => 3
  | .staAbsoluteX _ => 3
  | .staAbsoluteY _ => 3
  | .staIndirectX _ => 2
  | .staIndirectY _ => 2
  | .tax => 1
  | .inx => 1
  | .adcImmediate _ => 2
  | .adcZeroPage _ => 2
  | .adcZeroPageX _ => 2
  | .adcAbsolute _ => 3
  | .adcAbsoluteX _ => 3
  | .adcAbsoluteY _ => 3
  | .adcIndirectX _ => 2
  | .adcIndirectY _ => 2
  | .brk => 1

/-- Decode the instruction at the head of a list of bytes, and give the bytes after it. -/
def decode : List Byte → Except DecodeError (Instr × List Byte)
  | [] => .error .truncated
  | op :: rest =>
    match decodeOp op (rest.getD 0 0#8) (rest.getD 1 0#8) with
    | .error e => .error e
    | .ok i => if rest.length + 1 < i.length then .error .truncated else .ok (i, rest.drop (i.length - 1))

/-- The bytes of an `F2` instruction (R60). -/
def encodeF2 (op b1 : Byte) : List Byte := [op, b1]

/-- The bytes of an `F3` instruction: low operand byte first (R60, R62). -/
def encodeF3 (op : Byte) (operand : Word) : List Byte := [op, lowByte operand, highByte operand]

/-- The bytes of each instruction, from the Opcode and Format columns of R64. -/
def encode : Instr → List Byte
  | .ldaImmediate b1 => encodeF2 0xA9#8 b1
  | .ldaZeroPage b1 => encodeF2 0xA5#8 b1
  | .ldaZeroPageX b1 => encodeF2 0xB5#8 b1
  | .ldaAbsolute operand => encodeF3 0xAD#8 operand
  | .ldaAbsoluteX operand => encodeF3 0xBD#8 operand
  | .ldaAbsoluteY operand => encodeF3 0xB9#8 operand
  | .ldaIndirectX b1 => encodeF2 0xA1#8 b1
  | .ldaIndirectY b1 => encodeF2 0xB1#8 b1
  | .staZeroPage b1 => encodeF2 0x85#8 b1
  | .staZeroPageX b1 => encodeF2 0x95#8 b1
  | .staAbsolute operand => encodeF3 0x8D#8 operand
  | .staAbsoluteX operand => encodeF3 0x9D#8 operand
  | .staAbsoluteY operand => encodeF3 0x99#8 operand
  | .staIndirectX b1 => encodeF2 0x81#8 b1
  | .staIndirectY b1 => encodeF2 0x91#8 b1
  | .tax => [0xAA#8]
  | .inx => [0xE8#8]
  | .adcImmediate b1 => encodeF2 0x69#8 b1
  | .adcZeroPage b1 => encodeF2 0x65#8 b1
  | .adcZeroPageX b1 => encodeF2 0x75#8 b1
  | .adcAbsolute operand => encodeF3 0x6D#8 operand
  | .adcAbsoluteX operand => encodeF3 0x7D#8 operand
  | .adcAbsoluteY operand => encodeF3 0x79#8 operand
  | .adcIndirectX b1 => encodeF2 0x61#8 b1
  | .adcIndirectY b1 => encodeF2 0x71#8 b1
  | .brk => [0x00#8]

/-- The three bytes of a table word: byte 0 holds bits 7..0 of `w`, byte 1 bits 15..8, byte 2 bits 23..16; every bit from
`nbits` up is zero. -/
def tableBytes (nbits w : Nat) : List Byte :=
  [BitVec.ofNat 8 (w % 2 ^ nbits), BitVec.ofNat 8 (w % 2 ^ nbits / 256), BitVec.ofNat 8 (w % 2 ^ nbits / 65536)]

/-- The instruction the decoder reads from an instruction whose bits are `w`, numbered as the opcode table numbers them. -/
def decodeTableWord (nbits w : Nat) : Option Instr :=
  match decode (tableBytes nbits w) with
  | .ok (i, _) => some i
  | .error _ => none

end Sys2Proof
end

