-- ==== Sys2Proof/Machine/State.lean ====
section
/-! DEFINITION. The machine's state as plain data (spec 10_state.md R20 to R31), the reasons a step can end without a
next state, and the state after reset. -/

namespace Sys2Proof.Machine

/-- The Execution Loop's state (10_state.md R27): "There is no Stopped/Suspended state". -/
inductive RunState where
  | running
  | halted
  deriving DecidableEq, Repr

/-- Memory as (address, byte) pairs (10_state.md R28). Canonical form: addresses strictly rising and below 65536, no byte
0x00; an unlisted address reads as 0x00 (20_memory.md R40). -/
abbrev Memory := List Host.Cell

/-- "The complete architectural state" of 10_state.md R20, and the stack pointer of R29. -/
structure State where
  /-- `x[A]`, the accumulator (R21). -/
  a : Byte
  /-- `x[X]`, index register X (R22). -/
  x : Byte
  /-- `x[Y]`, index register Y (R23). -/
  y : Byte
  /-- `P`, the status register: C, Z, I, D, B, unused, V, N from bit 0 up (R24). -/
  p : Byte
  /-- The program counter (R26). -/
  pc : Word
  /-- `mem`, the 65536 cells (R28). -/
  mem : Memory
  /-- The run state (R27). -/
  run : RunState
  /-- `x[SP]`, architectural only under `BRK_STACK_EFFECTS` (R29); untouched otherwise (log entry 2). -/
  sp : Byte
  deriving DecidableEq, Repr

/-- The faults of 60_exceptions.md R184, a closed enumeration. A fault is an outcome of a step or of `load`, writes no
state and is terminal for the run (R180). -/
inductive Fault where
  /-- Raised by the step at the table lookup when `OPTABLE(op) = none` (R181). The spec's own fault, so safe. -/
  | illegalOpcode (op : Byte) (addr : Word)
  /-- Raised by the resolver when LDA, STA or ADC is dispatched with NoneAddressing (R182); needs a custom table. The
  spec's own fault, so safe. -/
  | addressingModeFault (op : Byte) (addr : Word)
  /-- Raised by `load` when the image is longer than 0x8000 bytes (R183). The spec's own fault, so safe. -/
  | imageTooLarge (n : Nat)
  deriving DecidableEq, Repr

/-- Why there is no step at all. -/
inductive Refusal where
  /-- An instruction whose arm of `exec` has no meaning yet: raised by no arm of this model. Safe. -/
  | notModelled (mnemonic : String)
  /-- The core is Halted: "the core has no step" (46_execution_loop.md R161; log entry 1). Raised by the step; safe. -/
  | halted
  /-- A custom table names a mnemonic outside the six: "such a table is refused" (30_encoding.md R71 case (e)). Raised when
  a raw table is taken in; safe. -/
  | unknownMnemonic (text : String)
  deriving DecidableEq, Repr

/-- The machine right after reset on created memory (10_state.md R30): registers and status zero, every cell 0x00, `pc` the
little-endian vector at 0xFFFC, which then reads 0x0000, Running; `sp` is `SP_RESET`'s default. -/
def State.reset : State :=
  { a := 0x00#8, x := 0x00#8, y := 0x00#8, p := 0x00#8, pc := 0x0000#16, mem := [], run := .running, sp := 0xFD#8 }

end Sys2Proof.Machine
end

