-- ==== Sys2Proof/Machine/Params.lean ====
section
/-! DEFINITION. The default values of the parameters (00_scope.md R6) and the taking in of a provider's table. -/

namespace Sys2Proof.Machine

/-- The machine this spec specifies (R6): the table of R64, BRK without stack effects, `SP_RESET` 0xFD. -/
def defaultParams : Params :=
  { optable := defaultTable, brkStackEffects := false, spReset := 0xFD#8 }

/-- Hold a provider's table as `OPTABLE`, or refuse it by the first mnemonic outside the six (30_encoding.md R71(e)). -/
def takeTable (raw : List (Byte × RawRecord)) (p : Params) : Except Refusal Params :=
  match OpTable.ofRaw raw with
  | .ok t => .ok { p with optable := t }
  | .error text => .error (.unknownMnemonic text)

end Sys2Proof.Machine
end

