-- ==== Sys2Proof/Machine/Ops.lean ====
section
/-! DEFINITION. The named operations over memory and registers: the primitives of 20_memory.md R40 to R43 and the
register writes of 00_scope.md R10. This hardware has no exception entry and no return from exception: "A fault saves
nothing inside the machine, changes no mode, mask or stack, and transfers control nowhere" (60_exceptions.md R187,
R188), so there is no operation for either: a fault is an outcome that carries no state. -/

namespace Sys2Proof.Machine

/-- What an address with no listed byte reads as: memory is "zero-initialized if never written" (R40, R30). -/
def unlistedByte : Byte := 0x00#8

/-- The byte at an address. -/
def Memory.read : Memory → Nat → Byte
  | [], _ => unlistedByte
  | c :: m, k => if c.1 = k then c.2 else read m k

/-- The memory with no byte listed at an address. -/
def Memory.erase : Memory → Nat → Memory
  | [], _ => []
  | c :: m, k => if c.1 = k then erase m k else c :: erase m k

/-- List a byte at its place in the rising order. -/
def Memory.insert : Memory → Nat → Byte → Memory
  | [], k, v => [(k, v)]
  | c :: m, k, v => if k < c.1 then (k, v) :: c :: m else c :: insert m k v

/-- Store a byte, keeping the canonical form: the value an unlisted address reads as is not listed. -/
def Memory.write (m : Memory) (k : Nat) (v : Byte) : Memory :=
  if v = unlistedByte then m.erase k else (m.erase k).insert k v

/-- The canonical form: addresses strictly rising and inside the 65536-byte space, no byte listed that an unlisted
address reads as. -/
def Memory.wf : Memory → Bool
  | [] => true
  | c :: m => decide (c.1 < 65536) && c.2 != unlistedByte && m.all (fun d => decide (c.1 < d.1)) && wf m

/-- `MemRead(addr, 1)` (R40). -/
def State.readByte (s : State) (addr : Word) : Byte := Memory.read s.mem addr.toNat

/-- `MemWrite(addr, 1, v)` (R41): every address is writable, the ROM range too (R49). -/
def State.writeByte (s : State) (addr : Word) (v : Byte) : State :=
  { s with mem := Memory.write s.mem addr.toNat v }

/-- `MemRead(addr, 2)` (R42): low byte at `addr`, high byte at `(addr + 1) mod 65536`. -/
def State.readWord (s : State) (addr : Word) : Word := mkWord (s.readByte (addr + 1#16)) (s.readByte addr)

/-- `MemWrite(addr, 2, v)` (R43). -/
def State.writeWord (s : State) (addr v : Word) : State :=
  (s.writeByte addr (lowByte v)).writeByte (addr + 1#16) (highByte v)

/-- `x[A] <- v`. -/
def State.setA (s : State) (v : Byte) : State := { s with a := v }

/-- `x[X] <- v`. -/
def State.setX (s : State) (v : Byte) : State := { s with x := v }

/-- `x[SP] <- v`. -/
def State.setSp (s : State) (v : Byte) : State := { s with sp := v }

/-- The status byte written whole; the flag operations of Flags.lean compute what is written. -/
def State.setP (s : State) (v : Byte) : State := { s with p := v }

/-- `pc <- target`. -/
def State.setPc (s : State) (target : Word) : State := { s with pc := target }

/-- `run <- r`. -/
def State.setRun (s : State) (r : RunState) : State := { s with run := r }

/-- `pc <- (pc + n) mod 65536` (10_state.md R26). -/
def State.advance (s : State) (n : Nat) : State := s.setPc (s.pc + BitVec.ofNat 16 n)

/-- Bytes stored one after another from an address upward, each address modulo 65536. -/
def State.placeBytes (s : State) (addr : Word) : List Byte → State
  | [] => s
  | b :: rest => (s.writeByte addr b).placeBytes (addr + 1#16) rest

/-- One push of R152: store at `0x0100 + x[SP]`, then `x[SP] <- (x[SP] - 1) mod 256`. -/
def State.pushByte (s : State) (v : Byte) : State :=
  (s.writeByte (Config.stackPage + zext16 s.sp) v).setSp (s.sp - 1#8)

/-- `raise IllegalOpcode(op, addr)` (60_exceptions.md R181). -/
def raiseIllegal (op : Byte) (addr : Word) : Host.Outcome State Fault Refusal := .fault (.illegalOpcode op addr)

/-- What the step answers when `run = Halted`: there is no step (46_execution_loop.md R161; log entry 1). -/
def noStep : Host.Outcome State Fault Refusal := .refused .halted

/-- A result that is a new state or a fault, as an outcome of the host's form. -/
def outcomeOf : Except Fault State → Host.Outcome State Fault Refusal
  | .ok t => .next t
  | .error f => .fault f

/-- The numeric code of a fault (60_exceptions.md R184). -/
def Fault.code : Fault → Nat
  | .illegalOpcode _ _ => 1
  | .addressingModeFault _ _ => 2
  | .imageTooLarge _ => 3

end Sys2Proof.Machine
end

