-- ==== Sys2Proof/Machine/Flags.lean ====
section
/-! DEFINITION. The Flag Engine and the 8-bit ALU (41_flag_engine_alu.md). -/

namespace Sys2Proof.Machine

/-- The eight bits of `P` (10_state.md R24). -/
inductive Flag where
  | carry
  | zero
  | interruptDisable
  | decimal
  | brk
  | unused
  | overflow
  | negative
  deriving DecidableEq, Repr

/-- The bit a flag stands at (10_state.md R24). -/
def Flag.bit : Flag → Nat
  | .carry => 0
  | .zero => 1
  | .interruptDisable => 2
  | .decimal => 3
  | .brk => 4
  | .unused => 5
  | .overflow => 6
  | .negative => 7

/-- `P.f` (00_scope.md R10). -/
def getFlag (p : Byte) (f : Flag) : Bool := p.getLsbD f.bit

/-- `P.f <- b`: "every other bit of `P` keeps its value" (00_scope.md R10). -/
def putFlag (p : Byte) (f : Flag) (b : Bool) : Byte :=
  if b then p ||| BitVec.twoPow 8 f.bit else p &&& ~~~(BitVec.twoPow 8 f.bit)

/-- `SetZN(v)` on a status byte (41_flag_engine_alu.md R100). -/
def setZN (p v : Byte) : Byte := putFlag (putFlag p .zero (v == 0x00#8)) .negative (v.getLsbD 7)

/-- `Inc8(v)` (41_flag_engine_alu.md R102). -/
def inc8 (v : Byte) : Byte := v + 1#8

/-- What `AddC` returns: result, carry-out, overflow. -/
structure AddResult where
  result : Byte
  carryOut : Bool
  overflow : Bool
  deriving DecidableEq, Repr

/-- `AddC(a, m, c)` (41_flag_engine_alu.md R103): binary whatever the Decimal flag holds. -/
def addC (a m : Byte) (c : Bool) : AddResult :=
  let sum := a.toNat + m.toNat + c.toNat
  let r := BitVec.ofNat 8 sum
  { result := r
    carryOut := decide (sum > 255)
    overflow := a.getLsbD 7 == m.getLsbD 7 && r.getLsbD 7 != a.getLsbD 7 }

/-- The status byte ADC leaves: `P.C`, `P.V`, then `SetZN` of the result (44_arithmetic.md R135). -/
def adcStatus (p : Byte) (r : AddResult) : Byte :=
  setZN (putFlag (putFlag p .carry r.carryOut) .overflow r.overflow) r.result

end Sys2Proof.Machine
end

