-- ==== Sys2Proof/Machine/Operands.lean ====
section
/-! DEFINITION. The Addressing Resolver (40_addressing_modes.md). Each mode's address arithmetic is written once, over the
operand; `effectiveAddress` is the resolver of R80, which reads the operand bytes at `pc`, and the meanings of the
decoded instructions apply the same arithmetic to the operand they carry. -/

namespace Sys2Proof.Machine

/-- ZeroPage (R82). -/
def zeroPageAddr (b1 : Byte) : Word := zext16 b1

/-- ZeroPageX and ZeroPageY (R84, R85): the sum wraps inside the zero page. -/
def zeroPageIndexed (b1 index : Byte) : Word := zext16 (b1 + index)

/-- AbsoluteX and AbsoluteY (R86, R87): the index is unsigned, the sum wraps at 16 bits. -/
def absoluteIndexed (base : Word) (index : Byte) : Word := base + zext16 index

/-- The pointer fetch of the indirect modes: both byte addresses stay in the zero page (R88, R89). -/
def zeroPagePointer (s : State) (ptr : Byte) : Word :=
  mkWord (s.readByte (zext16 (ptr + 1#8))) (s.readByte (zext16 ptr))

/-- IndirectX (R88): X is added before the pointer is fetched, nothing after. -/
def indirectXAddr (s : State) (b1 : Byte) : Word := zeroPagePointer s (b1 + s.x)

/-- IndirectY (R89): Y is added to the fetched pointer. -/
def indirectYAddr (s : State) (b1 : Byte) : Word := absoluteIndexed (zeroPagePointer s b1) s.y

/-- `EA(mode)` (R80): `s.pc` is the address of operand byte `b1`, as the instruction body sees it. None for
NoneAddressing, which the caller raises as `AddressingModeFault` (R90). -/
def effectiveAddress (mode : Mode) (s : State) : Option Word :=
  match mode with
  | .immediate => some s.pc
  | .zeroPage => some (zeroPageAddr (s.readByte s.pc))
  | .absolute => some (s.readWord s.pc)
  | .zeroPageX => some (zeroPageIndexed (s.readByte s.pc) s.x)
  | .zeroPageY => some (zeroPageIndexed (s.readByte s.pc) s.y)
  | .absoluteX => some (absoluteIndexed (s.readWord s.pc) s.x)
  | .absoluteY => some (absoluteIndexed (s.readWord s.pc) s.y)
  | .indirectX => some (indirectXAddr s (s.readByte s.pc))
  | .indirectY => some (indirectYAddr s (s.readByte s.pc))
  | .noneAddressing => none

end Sys2Proof.Machine
end

