-- ==== Sys2Proof/Machine/Arithmetic.lean ====
section
/-! DEFINITION. ADC (44_arithmetic.md). -/

namespace Sys2Proof.Machine

/-- The writes of R135 for the addend `m`: `P.C` is read before it is written, `P.D` is not read. -/
def State.addToA (s : State) (m : Byte) : State :=
  let r := addC s.a m (getFlag s.p .carry)
  (s.setA r.result).setP (adcStatus s.p r)

/-- The body of ADC at an effective address (R135). -/
def State.addFrom (s : State) (ea : Word) : State := s.addToA (s.readByte ea)

/-- ADC Immediate (R136). -/
def execAdcImmediate (b1 : Byte) (s : State) : Host.Outcome State Fault Refusal :=
  .next ((s.addToA b1).advance 2)

/-- ADC ZeroPage (R137). -/
def execAdcZeroPage (b1 : Byte) (s : State) : Host.Outcome State Fault Refusal :=
  .next ((s.addFrom (zeroPageAddr b1)).advance 2)

/-- ADC ZeroPageX (R138). -/
def execAdcZeroPageX (b1 : Byte) (s : State) : Host.Outcome State Fault Refusal :=
  .next ((s.addFrom (zeroPageIndexed b1 s.x)).advance 2)

/-- ADC Absolute (R139). -/
def execAdcAbsolute (operand : Word) (s : State) : Host.Outcome State Fault Refusal :=
  .next ((s.addFrom operand).advance 3)

/-- ADC AbsoluteX (R140). -/
def execAdcAbsoluteX (operand : Word) (s : State) : Host.Outcome State Fault Refusal :=
  .next ((s.addFrom (absoluteIndexed operand s.x)).advance 3)

/-- ADC AbsoluteY (R141). -/
def execAdcAbsoluteY (operand : Word) (s : State) : Host.Outcome State Fault Refusal :=
  .next ((s.addFrom (absoluteIndexed operand s.y)).advance 3)

/-- ADC IndirectX (R142). -/
def execAdcIndirectX (b1 : Byte) (s : State) : Host.Outcome State Fault Refusal :=
  .next ((s.addFrom (indirectXAddr s b1)).advance 2)

/-- ADC IndirectY (R143). -/
def execAdcIndirectY (b1 : Byte) (s : State) : Host.Outcome State Fault Refusal :=
  .next ((s.addFrom (indirectYAddr s b1)).advance 2)

end Sys2Proof.Machine
end

