-- ==== Sys2Proof/Machine/Control.lean ====
section
/-! DEFINITION. BRK (45_control_brk.md): the base semantics of R150 and the extension of R152, chosen by the parameter
`BRK_STACK_EFFECTS`. Both are entered with `pc` at the opcode byte. -/

namespace Sys2Proof.Machine

/-- BRK of the base hardware (R150): `pc <- (a0 + 1) mod 65536 ; run <- Halted`. -/
def State.brkHalt (s : State) : State := (s.advance 1).setRun .halted

/-- The three pushes of R152: the return address `a0 + 2`, high byte then low byte, and the status with Break and bit 5 set. -/
def State.brkPush (s : State) : State :=
  let ret := s.pc + 2#16
  ((s.pushByte (highByte ret)).pushByte (lowByte ret)).pushByte (s.p ||| 0x30#8)

/-- BRK with stack effects (R152): push, set Break and Interrupt-disable, take `pc` from the vector, halt. -/
def State.brkStack (s : State) : State :=
  let t := s.brkPush
  let u := t.setP (putFlag (putFlag t.p .brk true) .interruptDisable true)
  (u.setPc (u.readWord Config.brkVector)).setRun .halted

/-- BRK under either value of `BRK_STACK_EFFECTS` (R6). -/
def State.brkWith (s : State) (stackEffects : Bool) : State := if stackEffects then s.brkStack else s.brkHalt

/-- BRK of the machine this spec specifies: `BRK_STACK_EFFECTS` at its default (R150). -/
def execBrk (s : State) : Host.Outcome State Fault Refusal := .next (s.brkWith defaultParams.brkStackEffects)

end Sys2Proof.Machine
end

