-- ==== Sys2Proof/Machine/LoadStore.lean ====
section
/-! DEFINITION. LDA and STA (42_load_store.md). A meaning is entered with `pc` at the opcode byte (`a0`) and leaves it at
`(a0 + length) mod 65536`, the two advances of the opcode rules taken together. -/

namespace Sys2Proof.Machine

/-- `x[A] <- v ; SetZN(v)`, the writes of R110. -/
def State.loadA (s : State) (v : Byte) : State := (s.setA v).setP (setZN s.p v)

/-- The body of LDA at an effective address (R110). -/
def State.loadFrom (s : State) (ea : Word) : State := s.loadA (s.readByte ea)

/-- The body of STA at an effective address (R119). -/
def State.storeTo (s : State) (ea : Word) : State := s.writeByte ea s.a

/-- LDA Immediate (R111): the data is the operand byte itself. -/
def execLdaImmediate (b1 : Byte) (s : State) : Host.Outcome State Fault Refusal :=
  .next ((s.loadA b1).advance 2)

/-- LDA ZeroPage (R112). -/
def execLdaZeroPage (b1 : Byte) (s : State) : Host.Outcome State Fault Refusal :=
  .next ((s.loadFrom (zeroPageAddr b1)).advance 2)

/-- LDA ZeroPageX (R113). -/
def execLdaZeroPageX (b1 : Byte) (s : State) : Host.Outcome State Fault Refusal :=
  .next ((s.loadFrom (zeroPageIndexed b1 s.x)).advance 2)

/-- LDA Absolute (R114). -/
def execLdaAbsolute (operand : Word) (s : State) : Host.Outcome State Fault Refusal :=
  .next ((s.loadFrom operand).advance 3)

/-- LDA AbsoluteX (R115). -/
def execLdaAbsoluteX (operand : Word) (s : State) : Host.Outcome State Fault Refusal :=
  .next ((s.loadFrom (absoluteIndexed operand s.x)).advance 3)

/-- LDA AbsoluteY (R116). -/
def execLdaAbsoluteY (operand : Word) (s : State) : Host.Outcome State Fault Refusal :=
  .next ((s.loadFrom (absoluteIndexed operand s.y)).advance 3)

/-- LDA IndirectX (R117). -/
def execLdaIndirectX (b1 : Byte) (s : State) : Host.Outcome State Fault Refusal :=
  .next ((s.loadFrom (indirectXAddr s b1)).advance 2)

/-- LDA IndirectY (R118). -/
def execLdaIndirectY (b1 : Byte) (s : State) : Host.Outcome State Fault Refusal :=
  .next ((s.loadFrom (indirectYAddr s b1)).advance 2)

/-- STA ZeroPage (R120). -/
def execStaZeroPage (b1 : Byte) (s : State) : Host.Outcome State Fault Refusal :=
  .next ((s.storeTo (zeroPageAddr b1)).advance 2)

/-- STA ZeroPageX (R121). -/
def execStaZeroPageX (b1 : Byte) (s : State) : Host.Outcome State Fault Refusal :=
  .next ((s.storeTo (zeroPageIndexed b1 s.x)).advance 2)

/-- STA Absolute (R122). -/
def execStaAbsolute (operand : Word) (s : State) : Host.Outcome State Fault Refusal :=
  .next ((s.storeTo operand).advance 3)

/-- STA AbsoluteX (R123). -/
def execStaAbsoluteX (operand : Word) (s : State) : Host.Outcome State Fault Refusal :=
  .next ((s.storeTo (absoluteIndexed operand s.x)).advance 3)

/-- STA AbsoluteY (R124). -/
def execStaAbsoluteY (operand : Word) (s : State) : Host.Outcome State Fault Refusal :=
  .next ((s.storeTo (absoluteIndexed operand s.y)).advance 3)

/-- STA IndirectX (R125). -/
def execStaIndirectX (b1 : Byte) (s : State) : Host.Outcome State Fault Refusal :=
  .next ((s.storeTo (indirectXAddr s b1)).advance 2)

/-- STA IndirectY (R126). -/
def execStaIndirectY (b1 : Byte) (s : State) : Host.Outcome State Fault Refusal :=
  .next ((s.storeTo (indirectYAddr s b1)).advance 2)

end Sys2Proof.Machine
end

