-- ==== Sys2Proof/Machine/RegisterOps.lean ====
section
/-! DEFINITION. TAX and INX (43_register_ops.md). -/

namespace Sys2Proof.Machine

/-- `x[X] <- v ; SetZN(x[X])`, the writes of R130 and R131. -/
def State.loadX (s : State) (v : Byte) : State := (s.setX v).setP (setZN s.p v)

/-- The body of TAX (R130). -/
def State.transferAToX (s : State) : State := s.loadX s.a

/-- The body of INX (R131). -/
def State.incrementX (s : State) : State := s.loadX (inc8 s.x)

/-- TAX (R130). -/
def execTax (s : State) : Host.Outcome State Fault Refusal := .next (s.transferAToX.advance 1)

/-- INX (R131). -/
def execInx (s : State) : Host.Outcome State Fault Refusal := .next (s.incrementX.advance 1)

end Sys2Proof.Machine
end

