-- ==== Sys2Proof/Machine/Dispatch.lean ====
section
/-! DEFINITION. The meaning of each instruction, one arm per constructor (46_execution_loop.md R160, R164). `exec` is
entered with `pc` at the opcode byte and does the whole step of its opcode rule after the decode (log entry 4). -/

namespace Sys2Proof.Machine

/-- The meaning of a decoded instruction. -/
def exec (i : Instr) (s : State) : Host.Outcome State Fault Refusal :=
  match i with
  | .ldaImmediate b1 => Sys2Proof.Machine.execLdaImmediate b1 s
  | .ldaZeroPage b1 => Sys2Proof.Machine.execLdaZeroPage b1 s
  | .ldaZeroPageX b1 => Sys2Proof.Machine.execLdaZeroPageX b1 s
  | .ldaAbsolute operand => Sys2Proof.Machine.execLdaAbsolute operand s
  | .ldaAbsoluteX operand => Sys2Proof.Machine.execLdaAbsoluteX operand s
  | .ldaAbsoluteY operand => Sys2Proof.Machine.execLdaAbsoluteY operand s
  | .ldaIndirectX b1 => Sys2Proof.Machine.execLdaIndirectX b1 s
  | .ldaIndirectY b1 => Sys2Proof.Machine.execLdaIndirectY b1 s
  | .staZeroPage b1 => Sys2Proof.Machine.execStaZeroPage b1 s
  | .staZeroPageX b1 => Sys2Proof.Machine.execStaZeroPageX b1 s
  | .staAbsolute operand => Sys2Proof.Machine.execStaAbsolute operand s
  | .staAbsoluteX operand => Sys2Proof.Machine.execStaAbsoluteX operand s
  | .staAbsoluteY operand => Sys2Proof.Machine.execStaAbsoluteY operand s
  | .staIndirectX b1 => Sys2Proof.Machine.execStaIndirectX b1 s
  | .staIndirectY b1 => Sys2Proof.Machine.execStaIndirectY b1 s
  | .tax => Sys2Proof.Machine.execTax s
  | .inx => Sys2Proof.Machine.execInx s
  | .adcImmediate b1 => Sys2Proof.Machine.execAdcImmediate b1 s
  | .adcZeroPage b1 => Sys2Proof.Machine.execAdcZeroPage b1 s
  | .adcZeroPageX b1 => Sys2Proof.Machine.execAdcZeroPageX b1 s
  | .adcAbsolute operand => Sys2Proof.Machine.execAdcAbsolute operand s
  | .adcAbsoluteX operand => Sys2Proof.Machine.execAdcAbsoluteX operand s
  | .adcAbsoluteY operand => Sys2Proof.Machine.execAdcAbsoluteY operand s
  | .adcIndirectX b1 => Sys2Proof.Machine.execAdcIndirectX b1 s
  | .adcIndirectY b1 => Sys2Proof.Machine.execAdcIndirectY b1 s
  | .brk => Sys2Proof.Machine.execBrk s

end Sys2Proof.Machine
end

