-- ==== Sys2Proof/Machine/Fetch.lean ====
section
/-! DEFINITION. Fetching: the opcode byte at `pc` and the two bytes after it, decoded (46_execution_loop.md R160;
30_encoding.md R60). All addresses are modulo 65536, so an instruction may straddle 0xFFFF and 0x0000. -/

namespace Sys2Proof.Machine

/-- The three bytes at `pc`, the longest instruction's length. -/
def State.fetchBytes (s : State) : List Byte :=
  [s.readByte s.pc, s.readByte (s.pc + 1#16), s.readByte (s.pc + 2#16)]

/-- The instruction at `pc`. A byte after the opcode that its format does not use has no effect on the result, and reads
have none on the machine (20_memory.md R46). -/
def State.fetchInstr (s : State) : Except DecodeError Instr :=
  decodeOp (s.readByte s.pc) (s.readByte (s.pc + 1#16)) (s.readByte (s.pc + 2#16))

/-- What the step answers when the bytes at `pc` do not decode: the lookup is the only place a decode fails (R162), so this
is `IllegalOpcode` with the opcode byte and its address, and `pc` stays (60_exceptions.md R181). -/
def State.fetchFault (s : State) : Host.Outcome State Fault Refusal := raiseIllegal (s.readByte s.pc) s.pc

/-- Store an instruction's bytes where the next step fetches, with the core Running (log entry 5). -/
def State.placeInstr (s : State) (nbits w : Nat) : State :=
  (s.placeBytes s.pc (tableBytes nbits w)).setRun .running

end Sys2Proof.Machine
end

