-- ==== Sys2Proof/Machine/Step.lean ====
section
/-! DEFINITION. One step of the core with the default parameters (46_execution_loop.md R160, R161): fetch and decode at
`pc`, then the meaning of the decoded instruction. Machine/Loop.lean is the same step written as R160 writes it, from
the opcode table and for any parameters. -/

namespace Sys2Proof.Machine

/-- One step. -/
def step (s : State) : Host.Outcome State Fault Refusal :=
  match s.run with
  | .halted => noStep
  | .running =>
    match s.fetchInstr with
    | .ok i => exec i s
    | .error _ => s.fetchFault

/-- The state whose very next step fetches and runs the instruction with bits `w` (log entry 5). -/
def State.withFetchWord (s : State) (nbits w : Nat) : State := s.placeInstr nbits w

end Sys2Proof.Machine
end

