-- ==== Sys2Proof/Machine/Loop.lean ====
section
/-! DEFINITION. The Execution Loop as 46_execution_loop.md R160 writes it: driven by the opcode table and open in every
parameter of 00_scope.md R6, so that custom tables (30_encoding.md R71) and the BRK extension (45_control_brk.md R152)
have their meaning here; and the run built from it (R165). -/

namespace Sys2Proof.Machine

/-- The last line of R160: `pc <- (pc + e.length - 1) mod 65536`. The length is used "as it stands" (R66, R71 case (c)). -/
def State.skipOperands (s : State) (length : Nat) : State := s.setPc (s.pc + BitVec.ofNat 16 length - 1#16)

/-- An operand-consuming body under a mode: resolve, then run the body at the effective address; the tag NoneAddressing
raises `AddressingModeFault` before any write (60_exceptions.md R182). -/
def withOperand (e : OpRecord) (op : Byte) (a0 : Word) (s : State) (body : State → Word → State) :
    Except Fault State :=
  match effectiveAddress e.mode s with
  | none => .error (.addressingModeFault op a0)
  | some ea => .ok ((body s ea).skipOperands e.length)

/-- The `case e.mnemonic of` of R160. `s` is the state with `pc` past the opcode byte; TAX, INX and BRK ignore the mode (R71
case (b)); BRK ends the step before the last advance. -/
def dispatchRow (p : Params) (e : OpRecord) (op : Byte) (a0 : Word) (s : State) : Except Fault State :=
  match e.mnemonic with
  | .lda => withOperand e op a0 s State.loadFrom
  | .sta => withOperand e op a0 s State.storeTo
  | .adc => withOperand e op a0 s State.addFrom
  | .tax => .ok (s.transferAToX.skipOperands e.length)
  | .inx => .ok (s.incrementX.skipOperands e.length)
  | .brk => .ok ((s.setPc a0).brkWith p.brkStackEffects)

/-- `Step`, "defined when `run = Running`" (R160): a new state or a fault. -/
def stepRunning (p : Params) (s : State) : Except Fault State :=
  let op := s.readByte s.pc
  match OpTable.lookup p.optable op with
  | none => .error (.illegalOpcode op s.pc)
  | some e => dispatchRow p e op s.pc (s.advance 1)

/-- The step for any parameters; a Halted core has none (R161). -/
def stepWith (p : Params) (s : State) : Host.Outcome State Fault Refusal :=
  match s.run with
  | .halted => noStep
  | .running => outcomeOf (stepRunning p s)

/-- How far a run has come (R165): ended Halted, ended by a fault with "the state as it was before the faulting step" (R168),
or still Running when the allowance of steps is used up (log entry 7). -/
inductive RunResult where
  | halted (s : State)
  | faulted (f : Fault) (s : State)
  | stillRunning (s : State)
  deriving DecidableEq, Repr

/-- `run()` cut off after `fuel` steps (R165, R166). -/
def runFor (p : Params) : Nat → State → RunResult
  | fuel, s =>
    match s.run with
    | .halted => .halted s
    | .running =>
      match fuel with
      | 0 => .stillRunning s
      | n + 1 =>
        match stepRunning p s with
        | .error f => .faulted f s
        | .ok t => runFor p n t

/-- What the host observes at the end of a run: the registers and the status byte (R168); memory is read with `readByte`. -/
structure Observation where
  a : Byte
  x : Byte
  y : Byte
  p : Byte
  deriving DecidableEq, Repr

/-- The observable outputs of a state (R168). -/
def State.observe (s : State) : Observation := ⟨s.a, s.x, s.y, s.p⟩

end Sys2Proof.Machine
end

