-- ==== Sys2Proof/Machine/Loader.lean ====
section
/-! DEFINITION. Creation, reset and the host operations (70_reset_and_hazards.md). -/

namespace Sys2Proof.Machine

/-- Creation (R200): every field zero, memory zero-filled, Running; `x[SP]` at `SP_RESET` (10_state.md R30). -/
def createWith (p : Params) : State :=
  { a := 0x00#8, x := 0x00#8, y := 0x00#8, p := 0x00#8, pc := 0x0000#16, mem := [], run := .running, sp := p.spReset }

/-- `reset()` (R202): registers and status zero, `pc` from the vector, Running, memory unchanged; "Under `BRK_STACK_EFFECTS`,
reset also sets `x[SP] <- SP_RESET`". -/
def resetWith (p : Params) (s : State) : State :=
  { a := 0x00#8
    x := 0x00#8
    y := 0x00#8
    p := 0x00#8
    pc := s.readWord Config.resetVector
    mem := s.mem
    run := .running
    sp := if p.brkStackEffects then p.spReset else s.sp }

/-- `load(program)` (R204): the vector first, then the image, then `pc` and `run`; an image that is too long writes nothing
(60_exceptions.md R183). -/
def load (program : List Byte) (s : State) : Except Fault State :=
  if program.length > Config.maxImage then .error (.imageTooLarge program.length)
  else
    let t := (s.writeWord Config.resetVector Config.romBase).placeBytes Config.romBase program
    .ok ((t.setPc Config.romBase).setRun .running)

/-- `load_and_run(program)` (R205), its run cut off after `fuel` steps. -/
def loadAndRun (p : Params) (fuel : Nat) (program : List Byte) (s : State) : RunResult :=
  match load program s with
  | .error f => .faulted f s
  | .ok t => runFor p fuel (resetWith p t)

/-- What the host can do between steps (R206), and building a launch state (R209). Reads change nothing and are the
functions `readByte` and `observe`; `run` is `step` repeated (46_execution_loop.md R166). -/
inductive HostOp where
  /-- `create` (R200). R206 has it `once`; the model lets it be repeated (DESIGN CHOICE, log entry 12). -/
  | create
  /-- Write one memory byte (20_memory.md R41). -/
  | writeByte (addr : Word) (v : Byte)
  /-- Write a 16-bit value (20_memory.md R43). -/
  | writeWord (addr v : Word)
  /-- Set the registers of a launch state (R209). -/
  | launch (a x y p sp : Byte) (pc : Word)
  /-- `load` (R204). -/
  | load (program : List Byte)
  /-- `reset` (R202). -/
  | reset
  /-- One step (46_execution_loop.md R166). -/
  | step
  deriving DecidableEq, Repr

/-- The effect of a host operation. DESIGN CHOICE (log entry 12): `create` answers the created machine from every state,
Halted included; the spec gives it `once` and says nothing of a second creation. -/
def hostStep (p : Params) (op : HostOp) (s : State) : Host.Outcome State Fault Refusal :=
  match op with
  | .create => .next (createWith p)
  | .writeByte addr v => .next (s.writeByte addr v)
  | .writeWord addr v => .next (s.writeWord addr v)
  | .launch a x y q sp pc => .next { s with a := a, x := x, y := y, p := q, sp := sp, pc := pc }
  | .load program => outcomeOf (load program s)
  | .reset => .next (resetWith p s)
  | .step => stepWith p s

end Sys2Proof.Machine
end

