-- ==== Sys2Proof/Safety.lean ====
section
/-! DEFINITION. What counts as a good state and a safe run, and the words the statements are written in. The effect
predicates name every register, every flag bit and every byte of memory, so that each says the frame of an instruction
together with its result. -/

namespace Sys2Proof.Machine

/-- The invariant of the model: memory is in its canonical form. Every other field is exactly as wide as the spec says. -/
def MemCanonical (s : State) : Prop := Memory.wf s.mem = true

/-- Every byte of memory reads as before. -/
def MemKept (s t : State) : Prop := ∀ addr : Word, t.readByte addr = s.readByte addr

/-- Every byte of memory outside `ea` reads as before. -/
def MemKeptBut (ea : Word) (s t : State) : Prop := ∀ addr : Word, addr ≠ ea → t.readByte addr = s.readByte addr

/-- `pc` has moved `n` bytes on, modulo 65536 (10_state.md R26). -/
def PcMoved (n : Nat) (s t : State) : Prop := t.pc.toNat = (s.pc.toNat + n) % 65536

/-- The status byte `q` is `p` with Zero (bit 1) and Negative (bit 7) taken from `v` and the other six bits kept
(41_flag_engine_alu.md R100, 10_state.md R25). -/
def ZNFrom (v p q : Byte) : Prop :=
  q.getLsbD 1 = decide (v.toNat = 0) ∧ q.getLsbD 7 = decide (v.toNat ≥ 128) ∧
    ∀ n, n ≠ 1 → n ≠ 7 → q.getLsbD n = p.getLsbD n

/-- The effect of LDA with data `v` and length `n` (42_load_store.md R110). -/
def LoadsA (v : Byte) (n : Nat) (s t : State) : Prop :=
  t.a = v ∧ ZNFrom v s.p t.p ∧ t.x = s.x ∧ t.y = s.y ∧ t.sp = s.sp ∧ t.run = s.run ∧ PcMoved n s t ∧ MemKept s t

/-- The effect of STA at address `ea` and length `n` (42_load_store.md R119). -/
def StoresA (ea : Word) (n : Nat) (s t : State) : Prop :=
  t.readByte ea = s.a ∧ MemKeptBut ea s t ∧ t.a = s.a ∧ t.x = s.x ∧ t.y = s.y ∧ t.p = s.p ∧ t.sp = s.sp ∧
    t.run = s.run ∧ PcMoved n s t

/-- The effect of TAX and INX with new value `v` and length `n` (43_register_ops.md R130, R131). -/
def LoadsX (v : Byte) (n : Nat) (s t : State) : Prop :=
  t.x = v ∧ ZNFrom v s.p t.p ∧ t.a = s.a ∧ t.y = s.y ∧ t.sp = s.sp ∧ t.run = s.run ∧ PcMoved n s t ∧ MemKept s t

/-- The effect of BRK without stack effects: `pc` past the opcode byte, Halted, and nothing else written
(45_control_brk.md R150). -/
def HaltsAfterOpcode (s t : State) : Prop :=
  t.run = .halted ∧ PcMoved 1 s t ∧ t.a = s.a ∧ t.x = s.x ∧ t.y = s.y ∧ t.p = s.p ∧ t.sp = s.sp ∧ MemKept s t

/-- The unbounded sum of ADC: accumulator, addend and the incoming Carry, bit 0 of the status (R103). -/
def adcSum (s : State) (m : Byte) : Nat := s.a.toNat + m.toNat + (s.p.getLsbD 0).toNat

/-- The effect of ADC with addend `m` and length `n` (44_arithmetic.md R135, 41_flag_engine_alu.md R103): Carry (bit 0) when
the sum exceeds 255, Overflow (bit 6) when the operands agree in bit 7 and the result does not, Zero and Negative from
the 8-bit result, bits 2 to 5 kept. -/
def AddsToA (m : Byte) (n : Nat) (s t : State) : Prop :=
  t.a.toNat = adcSum s m % 256 ∧
    t.p.getLsbD 0 = decide (adcSum s m > 255) ∧
    t.p.getLsbD 6 = decide (s.a.getLsbD 7 = m.getLsbD 7 ∧ t.a.getLsbD 7 ≠ s.a.getLsbD 7) ∧
    t.p.getLsbD 1 = decide (t.a.toNat = 0) ∧
    t.p.getLsbD 7 = decide (t.a.toNat ≥ 128) ∧
    (∀ k, 2 ≤ k → k ≤ 5 → t.p.getLsbD k = s.p.getLsbD k) ∧
    t.x = s.x ∧ t.y = s.y ∧ t.sp = s.sp ∧ t.run = s.run ∧ PcMoved n s t ∧ MemKept s t

/-- The created machine: registers, status and `pc` zero, every cell 0x00, Running, and under `BRK_STACK_EFFECTS` the stack
pointer at `SP_RESET` (70_reset_and_hazards.md R200, 10_state.md R30). -/
def IsCreated (p : Params) (t : State) : Prop :=
  t.a = 0x00#8 ∧ t.x = 0x00#8 ∧ t.y = 0x00#8 ∧ t.p = 0x00#8 ∧ t.pc = 0x0000#16 ∧
    (∀ addr : Word, t.readByte addr = 0x00#8) ∧ t.run = .running ∧ (p.brkStackEffects = true → t.sp = p.spReset)

/-- The byte of memory at a numeric address, modulo 65536. -/
def State.byteAt (s : State) (n : Nat) : Byte := s.readByte (BitVec.ofNat 16 n)

/-- The little-endian 16-bit value at a numeric address: the second byte is at `(n + 1) mod 65536` (20_memory.md R42). -/
def State.wordAt (s : State) (n : Nat) : Nat := 256 * (s.byteAt ((n + 1) % 65536)).toNat + (s.byteAt n).toNat

/-- The address of a ZeroPage-indexed operand: `(b1 + index) mod 256` (40_addressing_modes.md R84, R85). -/
def zeroPageIndexedNat (b1 index : Byte) : Nat := (b1.toNat + index.toNat) % 256

/-- The address of an Absolute-indexed operand: `(base + index) mod 65536` (40_addressing_modes.md R86, R87). -/
def absoluteIndexedNat (base : Nat) (index : Byte) : Nat := (base + index.toNat) % 65536

/-- The pointer whose low byte is at zero-page address `n mod 256` and whose high byte is at `(n + 1) mod 256`. -/
def State.pointerAt (s : State) (n : Nat) : Nat :=
  256 * (s.byteAt ((n + 1) % 256)).toNat + (s.byteAt (n % 256)).toNat

/-- The address of an IndirectX operand: the pointer at `(b1 + X) mod 256` (40_addressing_modes.md R88). -/
def State.indirectXNat (s : State) (b1 : Byte) : Nat := s.pointerAt (zeroPageIndexedNat b1 s.x)

/-- The address of an IndirectY operand: the pointer at `b1`, plus Y modulo 65536 (40_addressing_modes.md R89). -/
def State.indirectYNat (s : State) (b1 : Byte) : Nat := absoluteIndexedNat (s.pointerAt b1.toNat) s.y

/-- The signed reading of an 8-bit value (00_scope.md R9). -/
def signedValue (v : Byte) : Int := if v.toNat < 128 then (v.toNat : Int) else (v.toNat : Int) - 256

/-- The mnemonic the default table gives the byte at `pc`. -/
def State.mnemonicAt (s : State) : Option Mnemonic :=
  (OpTable.lookup defaultTable (s.readByte s.pc)).map OpRecord.mnemonic

/-- The mode the default table gives the byte at `pc`. -/
def State.modeAt (s : State) : Option Mode := (OpTable.lookup defaultTable (s.readByte s.pc)).map OpRecord.mode

/-- The effective address of the instruction at `pc` under the default table, as its body sees it: with `pc` past the opcode
byte (10_state.md R26). -/
def State.targetAt (s : State) : Option Word := s.modeAt.bind (fun m => effectiveAddress m (s.advance 1))

/-- A run is safe for `fuel` steps when no fault ends it (46_execution_loop.md R165). -/
def SafeFor (p : Params) (fuel : Nat) (s : State) : Prop :=
  ∀ f t, runFor p fuel s ≠ .faulted f t

end Sys2Proof.Machine
end

