-- ==== Sys2Proof/Certificates/Slice0/Obligations.lean ====
section
/-! DEFINITION. The statements for the provers. Each docstring names the rules of spec/ it formalises, or says which choice of
the model (which log entry) it rests on. The effect predicates (`LoadsA`, `StoresA`, `AddsToA`, `LoadsX`,
`HaltsAfterOpcode`) stand in
Safety.lean; each names every register, every status bit and every byte of memory, so a result statement is also the
instruction's frame and its completion. -/

open Sys2Proof Sys2Proof.Machine

/-- R111: LDA Immediate, its bytes and its whole effect. -/
def Obligations.LdaImmediateLoadsItsOperandByte : Prop :=
  ∀ (b1 : Byte) (s : State),
    encode (.ldaImmediate b1) = [0xA9#8, b1] ∧
      ∃ t, exec (.ldaImmediate b1) s = .next t ∧ LoadsA b1 2 s t

/-- R112, R113: LDA ZeroPage and ZeroPageX; the indexed address wraps inside the zero page. -/
def Obligations.LdaZeroPageFormsLoadFromZeroPage : Prop :=
  ∀ (b1 : Byte) (s : State),
    (encode (.ldaZeroPage b1) = [0xA5#8, b1] ∧
      ∃ t, exec (.ldaZeroPage b1) s = .next t ∧ LoadsA (s.byteAt b1.toNat) 2 s t) ∧
    (encode (.ldaZeroPageX b1) = [0xB5#8, b1] ∧
      ∃ t, exec (.ldaZeroPageX b1) s = .next t ∧ LoadsA (s.byteAt (zeroPageIndexedNat b1 s.x)) 2 s t)

/-- R114, R115, R116: LDA Absolute, AbsoluteX and AbsoluteY; the sum wraps at 16 bits. -/
def Obligations.LdaAbsoluteFormsLoadFromOperandAddress : Prop :=
  ∀ (b1 b2 : Byte) (s : State),
    (encode (.ldaAbsolute (b2 ++ b1)) = [0xAD#8, b1, b2] ∧
      ∃ t, exec (.ldaAbsolute (b2 ++ b1)) s = .next t ∧
        LoadsA (s.byteAt (256 * b2.toNat + b1.toNat)) 3 s t) ∧
    (encode (.ldaAbsoluteX (b2 ++ b1)) = [0xBD#8, b1, b2] ∧
      ∃ t, exec (.ldaAbsoluteX (b2 ++ b1)) s = .next t ∧
        LoadsA (s.byteAt (absoluteIndexedNat (256 * b2.toNat + b1.toNat) s.x)) 3 s t) ∧
    (encode (.ldaAbsoluteY (b2 ++ b1)) = [0xB9#8, b1, b2] ∧
      ∃ t, exec (.ldaAbsoluteY (b2 ++ b1)) s = .next t ∧
        LoadsA (s.byteAt (absoluteIndexedNat (256 * b2.toNat + b1.toNat) s.y)) 3 s t)

/-- R117, R118: LDA IndirectX and IndirectY; the pointer bytes stay in the zero page. -/
def Obligations.LdaIndirectFormsLoadThroughZeroPagePointer : Prop :=
  ∀ (b1 : Byte) (s : State),
    (encode (.ldaIndirectX b1) = [0xA1#8, b1] ∧
      ∃ t, exec (.ldaIndirectX b1) s = .next t ∧ LoadsA (s.byteAt (s.indirectXNat b1)) 2 s t) ∧
    (encode (.ldaIndirectY b1) = [0xB1#8, b1] ∧
      ∃ t, exec (.ldaIndirectY b1) s = .next t ∧ LoadsA (s.byteAt (s.indirectYNat b1)) 2 s t)

/-- R120, R121: STA ZeroPage and ZeroPageX. -/
def Obligations.StaZeroPageFormsStoreToZeroPage : Prop :=
  ∀ (b1 : Byte) (s : State),
    (encode (.staZeroPage b1) = [0x85#8, b1] ∧
      ∃ t, exec (.staZeroPage b1) s = .next t ∧ StoresA (BitVec.ofNat 16 b1.toNat) 2 s t) ∧
    (encode (.staZeroPageX b1) = [0x95#8, b1] ∧
      ∃ t, exec (.staZeroPageX b1) s = .next t ∧
        StoresA (BitVec.ofNat 16 (zeroPageIndexedNat b1 s.x)) 2 s t)

/-- R122, R123, R124: STA Absolute, AbsoluteX and AbsoluteY. -/
def Obligations.StaAbsoluteFormsStoreToOperandAddress : Prop :=
  ∀ (b1 b2 : Byte) (s : State),
    (encode (.staAbsolute (b2 ++ b1)) = [0x8D#8, b1, b2] ∧
      ∃ t, exec (.staAbsolute (b2 ++ b1)) s = .next t ∧
        StoresA (BitVec.ofNat 16 (256 * b2.toNat + b1.toNat)) 3 s t) ∧
    (encode (.staAbsoluteX (b2 ++ b1)) = [0x9D#8, b1, b2] ∧
      ∃ t, exec (.staAbsoluteX (b2 ++ b1)) s = .next t ∧
        StoresA (BitVec.ofNat 16 (absoluteIndexedNat (256 * b2.toNat + b1.toNat) s.x)) 3 s t) ∧
    (encode (.staAbsoluteY (b2 ++ b1)) = [0x99#8, b1, b2] ∧
      ∃ t, exec (.staAbsoluteY (b2 ++ b1)) s = .next t ∧
        StoresA (BitVec.ofNat 16 (absoluteIndexedNat (256 * b2.toNat + b1.toNat) s.y)) 3 s t)

/-- R125, R126: STA IndirectX and IndirectY; the pointer is read before the store. -/
def Obligations.StaIndirectFormsStoreThroughZeroPagePointer : Prop :=
  ∀ (b1 : Byte) (s : State),
    (encode (.staIndirectX b1) = [0x81#8, b1] ∧
      ∃ t, exec (.staIndirectX b1) s = .next t ∧ StoresA (BitVec.ofNat 16 (s.indirectXNat b1)) 2 s t) ∧
    (encode (.staIndirectY b1) = [0x91#8, b1] ∧
      ∃ t, exec (.staIndirectY b1) s = .next t ∧ StoresA (BitVec.ofNat 16 (s.indirectYNat b1)) 2 s t)

/-- R136: ADC Immediate. -/
def Obligations.AdcImmediateAddsItsOperandByte : Prop :=
  ∀ (b1 : Byte) (s : State),
    encode (.adcImmediate b1) = [0x69#8, b1] ∧
      ∃ t, exec (.adcImmediate b1) s = .next t ∧ AddsToA b1 2 s t

/-- R137, R138: ADC ZeroPage and ZeroPageX. -/
def Obligations.AdcZeroPageFormsAddFromZeroPage : Prop :=
  ∀ (b1 : Byte) (s : State),
    (encode (.adcZeroPage b1) = [0x65#8, b1] ∧
      ∃ t, exec (.adcZeroPage b1) s = .next t ∧ AddsToA (s.byteAt b1.toNat) 2 s t) ∧
    (encode (.adcZeroPageX b1) = [0x75#8, b1] ∧
      ∃ t, exec (.adcZeroPageX b1) s = .next t ∧ AddsToA (s.byteAt (zeroPageIndexedNat b1 s.x)) 2 s t)

/-- R139, R140, R141: ADC Absolute, AbsoluteX and AbsoluteY. -/
def Obligations.AdcAbsoluteFormsAddFromOperandAddress : Prop :=
  ∀ (b1 b2 : Byte) (s : State),
    (encode (.adcAbsolute (b2 ++ b1)) = [0x6D#8, b1, b2] ∧
      ∃ t, exec (.adcAbsolute (b2 ++ b1)) s = .next t ∧
        AddsToA (s.byteAt (256 * b2.toNat + b1.toNat)) 3 s t) ∧
    (encode (.adcAbsoluteX (b2 ++ b1)) = [0x7D#8, b1, b2] ∧
      ∃ t, exec (.adcAbsoluteX (b2 ++ b1)) s = .next t ∧
        AddsToA (s.byteAt (absoluteIndexedNat (256 * b2.toNat + b1.toNat) s.x)) 3 s t) ∧
    (encode (.adcAbsoluteY (b2 ++ b1)) = [0x79#8, b1, b2] ∧
      ∃ t, exec (.adcAbsoluteY (b2 ++ b1)) s = .next t ∧
        AddsToA (s.byteAt (absoluteIndexedNat (256 * b2.toNat + b1.toNat) s.y)) 3 s t)

/-- R142, R143: ADC IndirectX and IndirectY. -/
def Obligations.AdcIndirectFormsAddThroughZeroPagePointer : Prop :=
  ∀ (b1 : Byte) (s : State),
    (encode (.adcIndirectX b1) = [0x61#8, b1] ∧
      ∃ t, exec (.adcIndirectX b1) s = .next t ∧ AddsToA (s.byteAt (s.indirectXNat b1)) 2 s t) ∧
    (encode (.adcIndirectY b1) = [0x71#8, b1] ∧
      ∃ t, exec (.adcIndirectY b1) s = .next t ∧ AddsToA (s.byteAt (s.indirectYNat b1)) 2 s t)

/-- R130: TAX. -/
def Obligations.TaxCopiesAToX : Prop :=
  ∀ s : State, encode .tax = [0xAA#8] ∧ ∃ t, exec .tax s = .next t ∧ LoadsX s.a 1 s t

/-- R131: INX wraps at 8 bits and writes neither Carry nor Overflow. -/
def Obligations.InxIncrementsXModulo256 : Prop :=
  ∀ s : State, encode .inx = [0xE8#8] ∧
    ∃ t v, exec .inx s = .next t ∧ v.toNat = (s.x.toNat + 1) % 256 ∧ LoadsX v 1 s t

/-- R150, R151: BRK of the base hardware halts, moves `pc` past its one byte and changes nothing else. -/
def Obligations.BrkHaltsAndChangesNothingElse : Prop :=
  ∀ s : State, encode .brk = [0x00#8] ∧
    ∃ t, exec .brk s = .next t ∧ HaltsAfterOpcode s t

/-- R152: BRK under `BRK_STACK_EFFECTS`. The three pushes go to page 0x0100 at SP, SP - 1 and SP - 2 modulo 256; the status
gains Interrupt-disable (bit 2) and Break (bit 4); `pc` comes from 0xFFFE; the core halts. -/
def Obligations.BrkWithStackEffectsPushesAndHalts : Prop :=
  ∀ (p : Params) (e : OpRecord) (s : State), p.brkStackEffects = true → s.run = .running →
    OpTable.lookup p.optable (s.readByte s.pc) = some e → e.mnemonic = .brk →
    ∃ t, stepWith p s = .next t ∧
      (t.byteAt (0x100 + s.sp.toNat)).toNat = (s.pc.toNat + 2) % 65536 / 256 ∧
      (t.byteAt (0x100 + (s.sp.toNat + 255) % 256)).toNat = (s.pc.toNat + 2) % 65536 % 256 ∧
      t.byteAt (0x100 + (s.sp.toNat + 254) % 256) = s.p ||| 0x30#8 ∧
      (∀ addr : Word, addr.toNat ≠ 0x100 + s.sp.toNat → addr.toNat ≠ 0x100 + (s.sp.toNat + 255) % 256 →
        addr.toNat ≠ 0x100 + (s.sp.toNat + 254) % 256 → t.readByte addr = s.readByte addr) ∧
      t.sp.toNat = (s.sp.toNat + 253) % 256 ∧
      (∀ n, n < 8 → t.p.getLsbD n = (s.p.getLsbD n || decide (n = 2 ∨ n = 4))) ∧
      t.pc.toNat = s.wordAt 0xFFFE ∧ t.run = .halted ∧ t.a = s.a ∧ t.x = s.x ∧ t.y = s.y

/-- A step runs the decoded instruction (R160): when the bytes at `pc` decode to `i`, or are the bytes of `i`'s encoding, the
step is `exec i`, with nothing around it (log entry 4 says why `exec` moves `pc` itself). -/
def Obligations.StepRunsTheDecodedInstruction : Prop :=
  (∀ (s : State) (i : Instr) (rest : List Byte), s.run = .running → i.wf = true →
    decode s.fetchBytes = .ok (i, rest) → step s = exec i s) ∧
  (∀ (s : State) (i : Instr), s.run = .running → i.wf = true →
    (∀ k, k < i.length → s.readByte (s.pc + BitVec.ofNat 16 k) = (encode i).getD k 0x00#8) → step s = exec i s)

/-- Words of every family, written out bit by bit from R60 and R64, decode to the instructions they stand for. -/
def Obligations.SampleWordsDecodeAsTheTableSays : Prop :=
  decode [0b10101001#8, 0b00000101#8, 0x00#8] = .ok (.ldaImmediate 0x05#8, [0x00#8]) ∧
  decode [0b10100101#8, 0b00010000#8] = .ok (.ldaZeroPage 0x10#8, []) ∧
  decode [0b10001101#8, 0b00000000#8, 0b00000010#8] = .ok (.staAbsolute 0x0200#16, []) ∧
  decode [0b01110001#8, 0b00100100#8] = .ok (.adcIndirectY 0x24#8, []) ∧
  decode [0b10101010#8] = .ok (.tax, []) ∧
  decode [0b11101000#8] = .ok (.inx, []) ∧
  decode [0b00000000#8] = .ok (.brk, [])

/-- Decode of encode, for every instruction and every operand, with any bytes after it (R60, R62, R64). -/
def Obligations.DecodeOfEncodeIsTheInstruction : Prop :=
  ∀ (i : Instr) (rest : List Byte), i.wf = true → decode (encode i ++ rest) = .ok (i, rest)

/-- Each decoded prefix is the encoding of what it decoded to: no instruction has a second spelling (R68). -/
def Obligations.DecodedBytesAreAnEncoding : Prop :=
  ∀ (bytes rest : List Byte) (i : Instr), decode bytes = .ok (i, rest) → bytes = encode i ++ rest

/-- R181, R67: a running core faults exactly when the byte at `pc` has no row, with that byte and its address; and 230 of
the 256 byte values have none. -/
def Obligations.IllegalOpcodeExactlyOutsideTheTable : Prop :=
  (∀ (s : State) (f : Fault), s.run = .running →
    (step s = .fault f ↔
      OpTable.lookup defaultTable (s.readByte s.pc) = none ∧ f = .illegalOpcode (s.readByte s.pc) s.pc)) ∧
  ((List.range 256).filter (fun n => (OpTable.lookup defaultTable (BitVec.ofNat 8 n)).isNone)).length = 230

/-- R160, R164: the step of the decoder and the meanings is the table-driven step with the default parameters. -/
def Obligations.StepRefinesTheExecutionLoop : Prop :=
  ∀ s : State, step s = stepWith defaultParams s

/-- R162, R182, R185: under any parameters the faults of a running step are exactly these two, each with the opcode byte and
the address it stands at, and they exclude each other. -/
def Obligations.StepFaultsAreExactlyTheTwo : Prop :=
  ∀ (p : Params) (s : State) (f : Fault), s.run = .running →
    (stepWith p s = .fault f ↔
      (OpTable.lookup p.optable (s.readByte s.pc) = none ∧ f = .illegalOpcode (s.readByte s.pc) s.pc) ∨
      (∃ e, OpTable.lookup p.optable (s.readByte s.pc) = some e ∧
        (e.mnemonic = .lda ∨ e.mnemonic = .sta ∨ e.mnemonic = .adc) ∧ e.mode = .noneAddressing ∧
        f = .addressingModeFault (s.readByte s.pc) s.pc))

/-- R71 with the bodies of R110, R119, R135, R130, R131 and R150: what every row of a custom table does. (a) NoneAddressing
with an operand-consuming mnemonic faults; with any other mode, ZeroPageY among them, LDA, STA and ADC have their whole
effect at the address the resolver gives; (b) TAX, INX and BRK have their whole effect whatever the mode; (c) the length
is used as it stands; (d) STA Immediate stores at its own operand byte; (e) a table with another mnemonic is refused.
Two clauses are the model's, log entry 8: that a length of 0 leaves `pc` at the opcode byte, and the six exact texts
by which `takeTable` knows a mnemonic. -/
def Obligations.CustomTableRowsMeanWhatTheyNeed : Prop :=
  (∀ (p : Params) (e : OpRecord) (s : State), s.run = .running →
    OpTable.lookup p.optable (s.readByte s.pc) = some e →
    ((e.mnemonic = .lda ∨ e.mnemonic = .sta ∨ e.mnemonic = .adc) → e.mode = .noneAddressing →
      stepWith p s = .fault (.addressingModeFault (s.readByte s.pc) s.pc)) ∧
    (e.mode ≠ .noneAddressing → ∃ ea, effectiveAddress e.mode (s.advance 1) = some ea) ∧
    (∀ ea, effectiveAddress e.mode (s.advance 1) = some ea →
      (e.mnemonic = .lda → ∃ t, stepWith p s = .next t ∧ LoadsA (s.readByte ea) e.length s t) ∧
      (e.mnemonic = .sta → ∃ t, stepWith p s = .next t ∧ StoresA ea e.length s t) ∧
      (e.mnemonic = .adc → ∃ t, stepWith p s = .next t ∧ AddsToA (s.readByte ea) e.length s t)) ∧
    (e.mnemonic = .sta → e.mode = .immediate →
      ∃ t, stepWith p s = .next t ∧ StoresA (BitVec.ofNat 16 (s.pc.toNat + 1)) e.length s t) ∧
    (e.mnemonic = .tax → ∃ t, stepWith p s = .next t ∧ LoadsX s.a e.length s t) ∧
    (e.mnemonic = .inx → ∃ t v, stepWith p s = .next t ∧ v.toNat = (s.x.toNat + 1) % 256 ∧ LoadsX v e.length s t) ∧
    (e.mnemonic = .brk → p.brkStackEffects = false → ∃ t, stepWith p s = .next t ∧ HaltsAfterOpcode s t)) ∧
  (∀ (p : Params) (before after : List (Byte × RawRecord)) (op : Byte) (r : RawRecord),
    r.mnemonic ∉ ["LDA", "STA", "TAX", "INX", "ADC", "BRK"] →
    ∃ text, takeTable (before ++ (op, r) :: after) p = .error (.unknownMnemonic text) ∧
      text ∉ ["LDA", "STA", "TAX", "INX", "ADC", "BRK"])

/-- Every step, under any parameters, keeps memory in its canonical form: strictly rising addresses inside the 65536-byte
space (R28), no byte listed that an unlisted address reads as. The form is the model's own (log entry 10). -/
def Obligations.StepKeepsMemoryCanonical : Prop :=
  (∀ s t : State, MemCanonical s → step s = .next t → MemCanonical t) ∧
  (∀ (p : Params) (s t : State), MemCanonical s → stepWith p s = .next t → MemCanonical t)

/-- The reset state meets the invariant (log entry 10). -/
def Obligations.ResetStateMemoryIsCanonical : Prop := MemCanonical State.reset

/-- So does every host operation (R206, R209; the list of operations and a creation after the first are the model's, log
entry 12): from the reset state the host reaches only states that meet it. -/
def Obligations.HostOperationsKeepMemoryCanonical : Prop :=
  ∀ (p : Params) (op : HostOp) (s t : State), MemCanonical s → hostStep p op s = .next t → MemCanonical t

/-- Two canonical memories that read alike at every address are one list: equal memories are equal data (log entry 10). -/
def Obligations.CanonicalMemoriesReadingAlikeAreEqual : Prop :=
  ∀ s t : State, MemCanonical s → MemCanonical t → MemKept s t → s.mem = t.mem

/-- R41, R42, R43, R44, R49: writes store what is read back, at every address, ROM range included, change no other cell and no
register; a 16-bit access is little-endian with its second byte at `(addr + 1) mod 65536`. -/
def Obligations.MemoryWritesReadBackAndLeaveTheRest : Prop :=
  ∀ (s : State) (addr : Word),
    (∀ v : Byte, (s.writeByte addr v).readByte addr = v ∧ MemKeptBut addr s (s.writeByte addr v) ∧
      s.writeByte addr v = { s with mem := (s.writeByte addr v).mem }) ∧
    (s.readWord addr).toNat = s.wordAt addr.toNat ∧
    (∀ v : Word, (s.writeWord addr v).readWord addr = v ∧
      ((s.writeWord addr v).readByte addr).toNat = v.toNat % 256 ∧
      ((s.writeWord addr v).byteAt ((addr.toNat + 1) % 65536)).toNat = v.toNat / 256 ∧
      (∀ w : Word, w ≠ addr → w.toNat ≠ (addr.toNat + 1) % 65536 → (s.writeWord addr v).readByte w = s.readByte w))

/-- R81 to R90: the resolver's address for each of the ten tags, with `pc` at the first operand byte. -/
def Obligations.ResolverGivesEachModesAddress : Prop :=
  ∀ s : State,
    effectiveAddress .immediate s = some s.pc ∧
    effectiveAddress .zeroPage s = some (BitVec.ofNat 16 (s.readByte s.pc).toNat) ∧
    effectiveAddress .absolute s = some (BitVec.ofNat 16 (s.wordAt s.pc.toNat)) ∧
    effectiveAddress .zeroPageX s = some (BitVec.ofNat 16 (zeroPageIndexedNat (s.readByte s.pc) s.x)) ∧
    effectiveAddress .zeroPageY s = some (BitVec.ofNat 16 (zeroPageIndexedNat (s.readByte s.pc) s.y)) ∧
    effectiveAddress .absoluteX s = some (BitVec.ofNat 16 (absoluteIndexedNat (s.wordAt s.pc.toNat) s.x)) ∧
    effectiveAddress .absoluteY s = some (BitVec.ofNat 16 (absoluteIndexedNat (s.wordAt s.pc.toNat) s.y)) ∧
    effectiveAddress .indirectX s = some (BitVec.ofNat 16 (s.indirectXNat (s.readByte s.pc))) ∧
    effectiveAddress .indirectY s = some (BitVec.ofNat 16 (s.indirectYNat (s.readByte s.pc))) ∧
    effectiveAddress .noneAddressing s = none

/-- R91, R80: the resolver is total but for NoneAddressing, and depends on `pc`, X, Y and memory only. -/
def Obligations.ResolverIsTotalAndReadsNoAccumulatorOrStatus : Prop :=
  ∀ (mode : Mode) (s t : State),
    (mode ≠ .noneAddressing → ∃ ea, effectiveAddress mode s = some ea) ∧
    (t.pc = s.pc → t.x = s.x → t.y = s.y → MemKept s t → effectiveAddress mode t = effectiveAddress mode s)

/-- R103: the sum, the carry and the overflow of `AddC`; overflow is exactly the true signed sum leaving -128..127. -/
def Obligations.AddCComputesSumCarryAndSignedOverflow : Prop :=
  ∀ (a m : Byte) (c : Bool),
    (addC a m c).result.toNat = (a.toNat + m.toNat + c.toNat) % 256 ∧
    ((addC a m c).carryOut = true ↔ a.toNat + m.toNat + c.toNat > 255) ∧
    ((addC a m c).overflow = true ↔
      a.getLsbD 7 = m.getLsbD 7 ∧ (addC a m c).result.getLsbD 7 ≠ a.getLsbD 7) ∧
    ((addC a m c).overflow = true ↔
      ¬(-128 ≤ signedValue a + signedValue m + (c.toNat : Int) ∧
        signedValue a + signedValue m + (c.toNat : Int) ≤ 127))

/-- R100, R102: `SetZN` writes Zero and Negative, never both 1, and no other bit; `Inc8` wraps at 8 bits. -/
def Obligations.FlagEngineSetsZeroAndNegativeOnly : Prop :=
  ∀ p v : Byte, ZNFrom v p (setZN p v) ∧ ¬((setZN p v).getLsbD 1 = true ∧ (setZN p v).getLsbD 7 = true) ∧
    (inc8 v).toNat = (v.toNat + 1) % 256

/-- R23: no step writes Y, whatever the parameters, and a loaded run ends with Y zero. -/
def Obligations.NoStepWritesY : Prop :=
  (∀ (p : Params) (s t : State), stepWith p s = .next t → t.y = s.y) ∧
  (∀ (p : Params) (fuel : Nat) (program : List Byte) (s t : State),
    loadAndRun p fuel program s = .halted t → t.y = 0x00#8)

/-- R24, R25: no step of the base hardware writes Interrupt-disable, Decimal, Break or bit 5; Carry and Overflow change only
under ADC, and STA and BRK change no status bit. -/
def Obligations.StatusBitsChangeOnlyUnderTheirInstructions : Prop :=
  ∀ s t : State, step s = .next t →
    (∀ n, 2 ≤ n → n ≤ 5 → t.p.getLsbD n = s.p.getLsbD n) ∧
    (s.mnemonicAt ≠ some .adc → t.p.getLsbD 0 = s.p.getLsbD 0 ∧ t.p.getLsbD 6 = s.p.getLsbD 6) ∧
    (s.mnemonicAt = some .sta ∨ s.mnemonicAt = some .brk → t.p = s.p)

/-- R24: only Carry is read. Two states that agree but for status bits 1 to 7 fault alike, and step to states that again
differ in the status only, with Carry alike and bits 2 to 5 carried along. -/
def Obligations.OnlyCarryOfTheStatusActs : Prop :=
  ∀ (s : State) (q : Byte), q.getLsbD 0 = s.p.getLsbD 0 →
    (∀ f, step s = .fault f ↔ step (s.setP q) = .fault f) ∧
    (∀ t, step s = .next t →
      ∃ r, step (s.setP q) = .next (t.setP r) ∧ r.getLsbD 0 = t.p.getLsbD 0 ∧
        ∀ n, 2 ≤ n → n ≤ 5 → r.getLsbD n = q.getLsbD n)

/-- R154, R160: every step leaves `pc` exactly its row's length further on, modulo 65536: there is no control transfer. -/
def Obligations.PcMovesByTheRowsLength : Prop :=
  ∀ (s t : State) (e : OpRecord), OpTable.lookup defaultTable (s.readByte s.pc) = some e → step s = .next t →
    PcMoved e.length s t

/-- R27, R150: a step halts the core exactly when the byte at `pc` is BRK's 0x00. -/
def Obligations.OnlyBrkHaltsTheCore : Prop :=
  ∀ s t : State, step s = .next t → (t.run = .halted ↔ s.readByte s.pc = 0x00#8)

/-- R161: a Halted core has no step, and of the host's operations only creation, load and reset make it Running again. That
the step answers a refusal there is the model's choice (log entry 1), and so is that creation, which the spec has `once`
and before any run, may be repeated on a Halted machine (log entry 12). -/
def Obligations.HaltedCoreHasNoStep : Prop :=
  ∀ (p : Params) (s : State), s.run = .halted →
    step s = .refused .halted ∧ stepWith p s = .refused .halted ∧
    ∀ (op : HostOp) (t : State), hostStep p op s = .next t →
      t.run = .halted ∨ op = .create ∨ op = .reset ∨ ∃ program, op = .load program

/-- R127: a store followed by a load that resolves to the same address leaves A as it was and sets Zero and Negative from
it, for every pair of modes. -/
def Obligations.StoreThenLoadReturnsTheStoredByte : Prop :=
  ∀ s t : State, s.mnemonicAt = some .sta → step s = .next t → t.mnemonicAt = some .lda →
    t.targetAt = s.targetAt → ∃ u, step t = .next u ∧ u.a = s.a ∧ ZNFrom s.a s.p u.p

/-- R144: LDA, ADC, STA, LDA, ADC, STA adds two 16-bit numbers from Carry 0, in every addressing mode, each operand being the
byte at its instruction's effective address when it runs; and no step but ADC's changes Carry. -/
def Obligations.AdcChainAddsSixteenBitNumbers : Prop :=
  (∀ (s0 s1 s2 s3 s4 s5 s6 : State) (e0 e1 e2 e3 e4 e5 : Word),
    s0.mnemonicAt = some .lda → s0.targetAt = some e0 → step s0 = .next s1 →
    s1.mnemonicAt = some .adc → s1.targetAt = some e1 → step s1 = .next s2 →
    s2.mnemonicAt = some .sta → s2.targetAt = some e2 → step s2 = .next s3 →
    s3.mnemonicAt = some .lda → s3.targetAt = some e3 → step s3 = .next s4 →
    s4.mnemonicAt = some .adc → s4.targetAt = some e4 → step s4 = .next s5 →
    s5.mnemonicAt = some .sta → s5.targetAt = some e5 → step s5 = .next s6 →
    s0.p.getLsbD 0 = false → e2 ≠ e5 →
    256 * (s6.readByte e5).toNat + (s6.readByte e2).toNat =
        ((256 * (s3.readByte e3).toNat + (s0.readByte e0).toNat) +
          (256 * (s4.readByte e4).toNat + (s1.readByte e1).toNat)) % 65536 ∧
      s6.p.getLsbD 0 =
        decide ((256 * (s3.readByte e3).toNat + (s0.readByte e0).toNat) +
          (256 * (s4.readByte e4).toNat + (s1.readByte e1).toNat) > 65535)) ∧
  (∀ s t : State, step s = .next t → s.mnemonicAt ≠ some .adc → t.p.getLsbD 0 = s.p.getLsbD 0) ∧
  State.reset.p.getLsbD 0 = false

/-- R204, R183: `load` writes the vector, then the image at 0x8000 upward over it, then `pc` and `run`, and nothing else; an
image that is too long is `ImageTooLarge`. -/
def Obligations.LoadPlacesTheImageAndTheVector : Prop :=
  ∀ (program : List Byte) (s : State),
    (program.length ≤ 0x8000 →
      ∃ t, load program s = .ok t ∧
        (∀ i (h : i < program.length), t.byteAt (0x8000 + i) = program[i]) ∧
        (program.length ≤ 0x7FFC → t.byteAt 0xFFFC = 0x00#8) ∧
        (program.length ≤ 0x7FFD → t.byteAt 0xFFFD = 0x80#8) ∧
        (∀ addr : Word, (addr.toNat < 0x8000 ∨ 0x8000 + program.length ≤ addr.toNat) → addr.toNat ≠ 0xFFFC →
          addr.toNat ≠ 0xFFFD → t.readByte addr = s.readByte addr) ∧
        t.a = s.a ∧ t.x = s.x ∧ t.y = s.y ∧ t.p = s.p ∧ t.sp = s.sp ∧ t.pc = 0x8000#16 ∧ t.run = .running) ∧
    (program.length > 0x8000 → load program s = .error (.imageTooLarge program.length))

/-- R205, R202, R208: `load_and_run` is the run from the state that `load` and then `reset` leave: zero registers, `x[SP]` at
`SP_RESET` under `BRK_STACK_EFFECTS`, memory as `load` leaves it, and `pc` at the vector, which is 0x8000 unless the
image itself supplies its bytes at offsets 0x7FFC and 0x7FFD. -/
def Obligations.LoadAndRunStartsAtTheVector : Prop :=
  ∀ (p : Params) (fuel : Nat) (program : List Byte) (s : State),
    (program.length ≤ 0x8000 →
      ∃ t u, load program s = .ok t ∧ hostStep p .reset t = .next u ∧ loadAndRun p fuel program s = runFor p fuel u ∧
        (p.brkStackEffects = true → u.sp = p.spReset) ∧ u.a = 0x00#8 ∧ u.x = 0x00#8 ∧ u.y = 0x00#8 ∧ u.p = 0x00#8 ∧ u.run = .running ∧ MemKept t u ∧
        u.pc.toNat = 256 * (program.getD 0x7FFD 0x80#8).toNat + (program.getD 0x7FFC 0x00#8).toNat) ∧
    (program.length > 0x8000 → loadAndRun p fuel program s = .faulted (.imageTooLarge program.length) s)

/-- R165, R166: a run is its steps: running `m + n` steps is running `m` and, if the core still runs, `n` more. That a run is
cut off after a number of steps is the model's form (log entry 7). -/
def Obligations.RunIsItsSteps : Prop :=
  (∀ (p : Params) (m n : Nat) (s : State),
    runFor p (m + n) s =
      match runFor p m s with
      | .stillRunning t => runFor p n t
      | .halted t => .halted t
      | .faulted f t => .faulted f t) ∧
  (∀ (p : Params) (n : Nat) (s t : State), stepWith p s = .next t → runFor p (n + 1) s = runFor p n t) ∧
  (∀ (p : Params) (n : Nat) (s : State) (f : Fault), stepWith p s = .fault f → runFor p (n + 1) s = .faulted f s)

/-- R165's example of a run that never ends: with 0xE8 in every cell the core increments X for ever. -/
def Obligations.MemoryFullOfInxNeverHalts : Prop :=
  ∀ s : State, s.run = .running → (∀ addr : Word, s.readByte addr = 0xE8#8) →
    ∀ n, SafeFor defaultParams n s ∧ ∃ t, runFor defaultParams n s = .stillRunning t ∧ t.x.toNat = (s.x.toNat + n) % 256 ∧
      t.pc.toNat = (s.pc.toNat + n) % 65536 ∧ t.a = s.a ∧ t.y = s.y ∧ MemKept s t

/-- R53, R119: memory changes only under STA, and then only the byte at its effective address, which becomes A. -/
def Obligations.OnlyStaChangesMemoryAndOnlyAtItsAddress : Prop :=
  ∀ s t : State, step s = .next t →
    (s.mnemonicAt ≠ some .sta → MemKept s t) ∧
    (∀ ea, s.mnemonicAt = some .sta → s.targetAt = some ea → t.readByte ea = s.a ∧ MemKeptBut ea s t)

/-- R29: the base hardware has no stack pointer: the model's field (log entry 2) is neither read nor written by a step. -/
def Obligations.BaseStepIgnoresTheStackPointer : Prop :=
  ∀ (s : State) (v : Byte),
    (∀ t, step s = .next t → t.sp = s.sp ∧ step (s.setSp v) = .next (t.setSp v)) ∧
    (∀ f, step s = .fault f → step (s.setSp v) = .fault f)

/-- R54: a store is seen by the next fetch. When STA's address is the next instruction's opcode byte, the next step runs, or
faults on, the byte just stored. -/
def Obligations.StoreIsSeenByTheNextFetch : Prop :=
  ∀ s t : State, s.mnemonicAt = some .sta → step s = .next t → s.targetAt = some t.pc →
    (∀ i, decodeOp s.a (t.readByte (t.pc + 1#16)) (t.readByte (t.pc + 2#16)) = .ok i → step t = exec i t) ∧
    (OpTable.lookup defaultTable s.a = none → step t = .fault (.illegalOpcode s.a t.pc))

/-- R202, R30: reset, from any state and under any parameters. -/
def Obligations.ResetZeroesRegistersAndLoadsTheVector : Prop :=
  ∀ (p : Params) (s : State), ∃ t, hostStep p .reset s = .next t ∧
    t.a = 0x00#8 ∧ t.x = 0x00#8 ∧ t.y = 0x00#8 ∧ t.p = 0x00#8 ∧ t.pc.toNat = s.wordAt 0xFFFC ∧ t.run = .running ∧
    MemKept s t ∧ (p.brkStackEffects = true → t.sp = p.spReset)

/-- R200, R30: the created machine, and that one that is stepped fetches BRK at 0x0000 and halts. -/
def Obligations.CreationIsAllZeroAndHaltsWhenStepped : Prop :=
  (∀ p : Params, IsCreated p (createWith p)) ∧
  (∃ t, step (createWith defaultParams) = .next t ∧ t.pc = 0x0001#16 ∧ t.run = .halted)

/-- The state the host starts from is reset applied to the created machine (log entry 6). -/
def Obligations.ResetStateIsResetOfTheCreatedMachine : Prop :=
  hostStep defaultParams .reset (createWith defaultParams) = .next State.reset

/-- R63, R64: the default table is a map of 26 rows, and every row's length is one more than its mode's operand bytes. -/
def Obligations.DefaultTableRowsAgreeWithTheirModes : Prop :=
  OpTable.wf defaultTable = true ∧ defaultTable.length = 26 ∧
    (∀ r ∈ defaultTable, r.2.length = 1 + r.2.mode.operandBytes) ∧
    Mode.noneAddressing.operandBytes = 0 ∧
    (∀ m ∈ [Mode.immediate, .zeroPage, .zeroPageX, .zeroPageY, .indirectX, .indirectY], m.operandBytes = 1) ∧
    ∀ m ∈ [Mode.absolute, .absoluteX, .absoluteY], m.operandBytes = 2

/-- R184: the codes of the three faults. -/
def Obligations.FaultCodesAreOneTwoThree : Prop :=
  (∀ op addr, (Fault.illegalOpcode op addr).code = 1) ∧ (∀ op addr, (Fault.addressingModeFault op addr).code = 2) ∧
    (∀ n, (Fault.imageTooLarge n).code = 3) ∧ ∀ f : Fault, f.code = 1 ∨ f.code = 2 ∨ f.code = 3

/-- The model's choice (log entry 12): the host may create a machine again from any state, Halted included, and nothing of
the old machine stays: two hosts that create get the same created machine. R206 has creation `once`. -/
def Obligations.CreatingAgainKeepsNothingOfTheOldMachine : Prop :=
  ∀ (p : Params) (s s' : State), ∃ t, hostStep p .create s = .next t ∧ hostStep p .create s' = .next t ∧ IsCreated p t
end

