-- ==== Sys2Proof/Laws/Flags.lean ====
section
/-! SUPPORT. What the Flag Engine and the ALU do, bit by bit. -/

namespace Sys2Proof.Machine

theorem Flag.bit_lt (f : Flag) : f.bit < 8 := by cases f <;> decide

/-- A flag write changes its own bit and no other (10_state.md R25). -/
theorem getLsbD_putFlag (p : Byte) (f : Flag) (b : Bool) (n : Nat) :
    (putFlag p f b).getLsbD n = if n = f.bit then b else p.getLsbD n := by
  have hf := f.bit_lt
  by_cases hn : n < 8
  · cases b <;> by_cases h : n = f.bit <;> simp [putFlag, h, hf, hn]
  · have hne : n ≠ f.bit := by omega
    rw [if_neg hne, BitVec.getLsbD_of_ge _ _ (by omega), BitVec.getLsbD_of_ge _ _ (by omega)]

theorem getLsbD_setZN (p v : Byte) (n : Nat) :
    (setZN p v).getLsbD n =
      if n = 7 then v.getLsbD 7 else if n = 1 then v == 0x00#8 else p.getLsbD n := by
  simp only [setZN, getLsbD_putFlag, Flag.bit]
  rfl

theorem getLsbD_adcStatus (p : Byte) (r : AddResult) (n : Nat) :
    (adcStatus p r).getLsbD n =
      if n = 7 then r.result.getLsbD 7 else if n = 1 then r.result == 0x00#8
      else if n = 6 then r.overflow else if n = 0 then r.carryOut else p.getLsbD n := by
  simp only [adcStatus, getLsbD_setZN, getLsbD_putFlag, Flag.bit]
  rfl

/-- Bit 7 is the sign of the two's complement reading (00_scope.md R9). -/
theorem getLsbD_seven (v : Byte) : v.getLsbD 7 = decide (v.toNat ≥ 128) := by
  have h := v.isLt
  rw [BitVec.getLsbD, Nat.testBit_eq_decide_div_mod_eq]
  by_cases hv : v.toNat ≥ 128
  · simp only [hv, decide_true, decide_eq_true_eq]; omega
  · simp only [hv, decide_false, decide_eq_false_iff_not]; omega

theorem beq_zero_eq (v : Byte) : (v == 0x00#8) = decide (v.toNat = 0) := by
  by_cases h : v = 0x00#8
  · simp [h]
  · have : v.toNat ≠ 0 := fun e => h (BitVec.eq_of_toNat_eq (by simpa using e))
    simp [h, this]

theorem addC_result_toNat (a m : Byte) (c : Bool) :
    (addC a m c).result.toNat = (a.toNat + m.toNat + c.toNat) % 256 := by
  simp [addC]

theorem addC_carryOut (a m : Byte) (c : Bool) :
    (addC a m c).carryOut = decide (a.toNat + m.toNat + c.toNat > 255) := rfl

theorem addC_overflow (a m : Byte) (c : Bool) :
    (addC a m c).overflow =
      decide (a.getLsbD 7 = m.getLsbD 7 ∧ (addC a m c).result.getLsbD 7 ≠ a.getLsbD 7) := by
  simp [addC, Bool.decide_and, bne, Bool.beq_eq_decide_eq]

end Sys2Proof.Machine
end

