-- ==== Sys2Proof/Laws/Memory.lean ====
section
/-! SUPPORT. Laws of memory: a read after a write, what a write leaves alone, and the canonical form. The read laws hold for
every list, canonical or not. -/

namespace Sys2Proof.Machine

theorem Memory.read_erase_same (m : Memory) (k : Nat) : Memory.read (Memory.erase m k) k = unlistedByte := by
  induction m with
  | nil => rfl
  | cons c m ih => by_cases h : c.1 = k <;> simp [Memory.erase, Memory.read, h, ih]

theorem Memory.read_erase_other (m : Memory) {j k : Nat} (h : j ≠ k) :
    Memory.read (Memory.erase m k) j = Memory.read m j := by
  induction m with
  | nil => rfl
  | cons c m ih =>
    by_cases hk : c.1 = k
    · simp [Memory.erase, Memory.read, hk, ih, Ne.symm h]
    · simp [Memory.erase, Memory.read, hk, ih]

theorem Memory.erase_key_ne (m : Memory) (k : Nat) : ∀ c ∈ Memory.erase m k, c.1 ≠ k := by
  induction m with
  | nil => simp [Memory.erase]
  | cons c m ih =>
    by_cases h : c.1 = k
    · simpa [Memory.erase, h] using ih
    · simpa [Memory.erase, h] using ih

theorem Memory.read_insert_other (m : Memory) {j k : Nat} (v : Byte) (h : j ≠ k) :
    Memory.read (Memory.insert m k v) j = Memory.read m j := by
  induction m with
  | nil => simp [Memory.insert, Memory.read, Ne.symm h]
  | cons c m ih =>
    by_cases hk : k < c.1
    · simp [Memory.insert, Memory.read, hk, Ne.symm h]
    · simp [Memory.insert, Memory.read, hk, ih]

theorem Memory.read_insert_same (m : Memory) (k : Nat) (v : Byte) (h : ∀ c ∈ m, c.1 ≠ k) :
    Memory.read (Memory.insert m k v) k = v := by
  induction m with
  | nil => simp [Memory.insert, Memory.read]
  | cons c m ih =>
    have hc : c.1 ≠ k := h c (by simp)
    have hm : ∀ d ∈ m, d.1 ≠ k := fun d hd => h d (by simp [hd])
    by_cases hk : k < c.1
    · simp [Memory.insert, Memory.read, hk]
    · simp [Memory.insert, Memory.read, hk, hc, ih hm]

theorem Memory.read_write_same (m : Memory) (k : Nat) (v : Byte) : Memory.read (Memory.write m k v) k = v := by
  by_cases h : v = unlistedByte
  · simp [Memory.write, h, Memory.read_erase_same]
  · simp [Memory.write, h, Memory.read_insert_same _ _ _ (Memory.erase_key_ne m k)]

theorem Memory.read_write_other (m : Memory) {j k : Nat} (v : Byte) (h : j ≠ k) :
    Memory.read (Memory.write m k v) j = Memory.read m j := by
  by_cases hv : v = unlistedByte
  · simp [Memory.write, hv, Memory.read_erase_other m h]
  · simp [Memory.write, hv, Memory.read_insert_other _ v h, Memory.read_erase_other m h]

/-- A canonical memory's head and tail. -/
theorem Memory.wf_cons {c : Host.Cell} {m : Memory} :
    Memory.wf (c :: m) = true ↔
      c.1 < 65536 ∧ c.2 ≠ unlistedByte ∧ (∀ d ∈ m, c.1 < d.1) ∧ Memory.wf m = true := by
  simp [Memory.wf, and_assoc]

theorem Memory.erase_subset (m : Memory) (k : Nat) : ∀ c ∈ Memory.erase m k, c ∈ m := by
  induction m with
  | nil => simp [Memory.erase]
  | cons c m ih =>
    intro d hd
    by_cases h : c.1 = k
    · rw [Memory.erase, if_pos h] at hd
      exact List.mem_cons_of_mem _ (ih d hd)
    · rw [Memory.erase, if_neg h] at hd
      rcases List.mem_cons.1 hd with hd | hd
      · simp [hd]
      · exact List.mem_cons_of_mem _ (ih d hd)

theorem Memory.wf_erase {m : Memory} (k : Nat) (h : Memory.wf m = true) : Memory.wf (Memory.erase m k) = true := by
  induction m with
  | nil => rfl
  | cons c m ih =>
    obtain ⟨h1, h2, h3, h4⟩ := Memory.wf_cons.1 h
    by_cases hk : c.1 = k
    · simp [Memory.erase, hk, ih h4]
    · rw [Memory.erase, if_neg hk, Memory.wf_cons]
      exact ⟨h1, h2, fun d hd => h3 d (Memory.erase_subset m k d hd), ih h4⟩

theorem Memory.mem_insert {m : Memory} {k : Nat} {v : Byte} {d : Host.Cell} (h : d ∈ Memory.insert m k v) :
    d = (k, v) ∨ d ∈ m := by
  induction m with
  | nil => simpa [Memory.insert] using h
  | cons c m ih =>
    by_cases hk : k < c.1
    · simpa [Memory.insert, hk] using h
    · rw [Memory.insert, if_neg hk] at h
      rcases List.mem_cons.1 h with h | h
      · simp [h]
      · rcases ih h with h | h
        · exact .inl h
        · exact .inr (List.mem_cons_of_mem _ h)

theorem Memory.wf_insert {m : Memory} {k : Nat} {v : Byte} (hk : k < 65536) (hv : v ≠ unlistedByte)
    (hne : ∀ c ∈ m, c.1 ≠ k) (h : Memory.wf m = true) : Memory.wf (Memory.insert m k v) = true := by
  induction m with
  | nil => simp [Memory.insert, Memory.wf, hk, hv]
  | cons c m ih =>
    obtain ⟨h1, h2, h3, h4⟩ := Memory.wf_cons.1 h
    have hc : c.1 ≠ k := hne c (by simp)
    by_cases hlt : k < c.1
    · rw [Memory.insert, if_pos hlt, Memory.wf_cons]
      refine ⟨hk, hv, fun d hd => ?_, h⟩
      rcases List.mem_cons.1 hd with hd | hd
      · simpa [hd] using hlt
      · exact hlt.trans (h3 d hd)
    · rw [Memory.insert, if_neg hlt, Memory.wf_cons]
      refine ⟨h1, h2, fun d hd => ?_, ih (fun d hd => hne d (by simp [hd])) h4⟩
      rcases Memory.mem_insert hd with hd | hd
      · simp only [hd]; omega
      · exact h3 d hd

/-- Every store keeps the canonical form. -/
theorem Memory.wf_write {m : Memory} {k : Nat} (v : Byte) (hk : k < 65536) (h : Memory.wf m = true) :
    Memory.wf (Memory.write m k v) = true := by
  by_cases hv : v = unlistedByte
  · simp [Memory.write, hv, Memory.wf_erase k h]
  · rw [Memory.write, if_neg hv]
    exact Memory.wf_insert hk hv (Memory.erase_key_ne m k) (Memory.wf_erase k h)

/-- The read laws over states, by address (20_memory.md R44 and the frame of R41). -/
@[simp] theorem State.readByte_writeByte_same (s : State) (addr : Word) (v : Byte) :
    (s.writeByte addr v).readByte addr = v := Memory.read_write_same _ _ _

theorem State.readByte_writeByte_other (s : State) {addr w : Word} (v : Byte) (h : w ≠ addr) :
    (s.writeByte addr v).readByte w = s.readByte w :=
  Memory.read_write_other _ v (fun e => h (BitVec.eq_of_toNat_eq e))

theorem State.readByte_writeByte (s : State) (addr w : Word) (v : Byte) :
    (s.writeByte addr v).readByte w = if w = addr then v else s.readByte w := by
  by_cases h : w = addr
  · simp [h]
  · simp [h, State.readByte_writeByte_other s v h]

theorem State.wf_writeByte {s : State} (addr : Word) (v : Byte) (h : Memory.wf s.mem = true) :
    Memory.wf (s.writeByte addr v).mem = true := Memory.wf_write v addr.isLt h

theorem State.wf_writeWord {s : State} (addr v : Word) (h : Memory.wf s.mem = true) :
    Memory.wf (s.writeWord addr v).mem = true := State.wf_writeByte _ _ (State.wf_writeByte _ _ h)

theorem State.wf_placeBytes {s : State} (addr : Word) (bytes : List Byte) (h : Memory.wf s.mem = true) :
    Memory.wf (s.placeBytes addr bytes).mem = true := by
  induction bytes generalizing s addr with
  | nil => exact h
  | cons b rest ih => exact ih (addr + 1#16) (State.wf_writeByte addr b h)

theorem State.wf_pushByte {s : State} (v : Byte) (h : Memory.wf s.mem = true) :
    Memory.wf (s.pushByte v).mem = true := State.wf_writeByte _ _ h

/-- What `placeBytes` leaves of the other fields. -/
theorem State.placeBytes_regs (s : State) (addr : Word) (bytes : List Byte) :
    (s.placeBytes addr bytes).a = s.a ∧ (s.placeBytes addr bytes).x = s.x ∧ (s.placeBytes addr bytes).y = s.y ∧
      (s.placeBytes addr bytes).p = s.p ∧ (s.placeBytes addr bytes).pc = s.pc ∧
      (s.placeBytes addr bytes).run = s.run ∧ (s.placeBytes addr bytes).sp = s.sp := by
  induction bytes generalizing s addr with
  | nil => simp [State.placeBytes]
  | cons b rest ih => simpa [State.placeBytes] using ih (s.writeByte addr b) (addr + 1#16)

/-- An address that none of the stored bytes falls on reads as before. -/
theorem State.readByte_placeBytes_other (s : State) (addr w : Word) (bytes : List Byte)
    (h : ∀ i, i < bytes.length → w ≠ addr + BitVec.ofNat 16 i) :
    (s.placeBytes addr bytes).readByte w = s.readByte w := by
  induction bytes generalizing s addr with
  | nil => rfl
  | cons b rest ih =>
    have h0 : w ≠ addr := by simpa using h 0 (by simp)
    rw [State.placeBytes, ih, State.readByte_writeByte_other s b h0]
    intro i hi
    have := h (i + 1) (by simpa using hi)
    rwa [show addr + BitVec.ofNat 16 (i + 1) = addr + 1#16 + BitVec.ofNat 16 i by
      rw [Nat.add_comm, BitVec.ofNat_add, BitVec.add_assoc]] at this

/-- Byte `i` of at most 65536 stored bytes reads back at its address. -/
theorem State.readByte_placeBytes_at (s : State) (addr : Word) (bytes : List Byte) (hlen : bytes.length ≤ 65536)
    (i : Nat) (hi : i < bytes.length) :
    (s.placeBytes addr bytes).readByte (addr + BitVec.ofNat 16 i) = bytes[i] := by
  induction bytes generalizing s addr i with
  | nil => simp at hi
  | cons b rest ih =>
    have hlen' : rest.length < 65536 := by simpa using hlen
    rw [State.placeBytes]
    cases i with
    | zero =>
      rw [State.readByte_placeBytes_other]
      · simp
      · intro j hj e
        have e' := congrArg BitVec.toNat e
        simp only [BitVec.toNat_add, BitVec.toNat_ofNat] at e'
        have := addr.isLt
        omega
    | succ j =>
      have hj : j < rest.length := by simpa using hi
      rw [show addr + BitVec.ofNat 16 (j + 1) = addr + 1#16 + BitVec.ofNat 16 j by
        rw [Nat.add_comm, BitVec.ofNat_add, BitVec.add_assoc]]
      simpa using ih (s.writeByte addr b) (addr + 1#16) (by omega) j hj

end Sys2Proof.Machine
end

