-- ==== Sys2Proof/Laws/Operands.lean ====
section
/-! SUPPORT. The address arithmetic as natural numbers: each address function of Operands.lean is the numeric function the
statements name. -/

namespace Sys2Proof.Machine

theorem toNat_mkWord (hi lo : Byte) : (mkWord hi lo).toNat = 256 * hi.toNat + lo.toNat := by
  have := lo.isLt
  rw [mkWord, BitVec.toNat_append, Nat.shiftLeft_eq, ← Nat.shiftLeft_eq,
    ← Nat.shiftLeft_add_eq_or_of_lt (by omega), Nat.shiftLeft_eq]
  omega

theorem toNat_append_bytes (hi lo : Byte) : (hi ++ lo : Word).toNat = 256 * hi.toNat + lo.toNat :=
  toNat_mkWord hi lo

@[simp] theorem toNat_zext16 (v : Byte) : (zext16 v).toNat = v.toNat := by
  have := v.isLt
  simp only [zext16, BitVec.toNat_setWidth]
  omega

theorem toNat_lowByte (w : Word) : (lowByte w).toNat = w.toNat % 256 := by
  simp [lowByte]

theorem toNat_highByte (w : Word) : (highByte w).toNat = w.toNat / 256 := by
  have := w.isLt
  simp only [highByte, BitVec.extractLsb'_toNat, Nat.shiftRight_eq_div_pow]
  omega

@[simp] theorem lowByte_append (hi lo : Byte) : lowByte (hi ++ lo) = lo := by
  apply BitVec.eq_of_toNat_eq
  have := lo.isLt
  rw [toNat_lowByte, toNat_append_bytes]; omega

@[simp] theorem highByte_append (hi lo : Byte) : highByte (hi ++ lo) = hi := by
  apply BitVec.eq_of_toNat_eq
  have := lo.isLt
  rw [toNat_highByte, toNat_append_bytes]; omega

theorem mkWord_bytes (w : Word) : mkWord (highByte w) (lowByte w) = w := by
  apply BitVec.eq_of_toNat_eq
  rw [toNat_mkWord, toNat_lowByte, toNat_highByte]; omega

theorem word_eq_ofNat {w : Word} {n : Nat} (h : w.toNat = n % 65536) : w = BitVec.ofNat 16 n :=
  BitVec.eq_of_toNat_eq (by simpa using h)

theorem State.byteAt_of_toNat (s : State) (w : Word) {n : Nat} (h : w.toNat = n % 65536) :
    s.byteAt n = s.readByte w := by rw [State.byteAt, word_eq_ofNat h]

theorem State.byteAt_toNat (s : State) (w : Word) : s.byteAt w.toNat = s.readByte w :=
  State.byteAt_of_toNat s w (by have := w.isLt; omega)

theorem State.toNat_readWord (s : State) (w : Word) : (s.readWord w).toNat = s.wordAt w.toNat := by
  rw [State.readWord, toNat_mkWord, State.wordAt, State.byteAt_toNat,
    State.byteAt_of_toNat s (w + 1#16) (by simp)]

theorem zeroPageAddr_eq (b1 : Byte) : zeroPageAddr b1 = BitVec.ofNat 16 b1.toNat :=
  word_eq_ofNat (by have := b1.isLt; simp only [zeroPageAddr, toNat_zext16]; omega)

theorem zeroPageIndexed_eq (b1 index : Byte) :
    zeroPageIndexed b1 index = BitVec.ofNat 16 (zeroPageIndexedNat b1 index) :=
  word_eq_ofNat (by simp only [zeroPageIndexed, toNat_zext16, zeroPageIndexedNat, BitVec.toNat_add]; omega)

theorem absoluteIndexed_eq (base : Word) (index : Byte) :
    absoluteIndexed base index = BitVec.ofNat 16 (absoluteIndexedNat base.toNat index) :=
  word_eq_ofNat (by simp [absoluteIndexed, absoluteIndexedNat])

theorem State.pointerAt_lt (s : State) (n : Nat) : s.pointerAt n < 65536 := by
  have h1 := (s.byteAt ((n + 1) % 256)).isLt
  have h2 := (s.byteAt (n % 256)).isLt
  simp only [State.pointerAt]; omega

theorem State.toNat_zeroPagePointer (s : State) (ptr : Byte) :
    (zeroPagePointer s ptr).toNat = s.pointerAt ptr.toNat := by
  have h := ptr.isLt
  have hlo : s.byteAt (ptr.toNat % 256) = s.readByte (zext16 ptr) :=
    State.byteAt_of_toNat s _ (by simp only [toNat_zext16]; omega)
  have hhi : s.byteAt ((ptr.toNat + 1) % 256) = s.readByte (zext16 (ptr + 1#8)) :=
    State.byteAt_of_toNat s _ (by simp only [toNat_zext16, BitVec.toNat_add, BitVec.toNat_ofNat]; omega)
  rw [zeroPagePointer, toNat_mkWord, State.pointerAt, hlo, hhi]

theorem State.indirectXAddr_eq (s : State) (b1 : Byte) :
    indirectXAddr s b1 = BitVec.ofNat 16 (s.indirectXNat b1) := by
  apply word_eq_ofNat
  have := s.pointerAt_lt (zeroPageIndexedNat b1 s.x)
  rw [indirectXAddr, State.toNat_zeroPagePointer, State.indirectXNat, BitVec.toNat_add]
  exact (Nat.mod_eq_of_lt this).symm

theorem State.indirectYAddr_eq (s : State) (b1 : Byte) :
    indirectYAddr s b1 = BitVec.ofNat 16 (s.indirectYNat b1) := by
  rw [indirectYAddr, absoluteIndexed_eq, State.toNat_zeroPagePointer, State.indirectYNat]

end Sys2Proof.Machine
end

