-- ==== Sys2Proof/Laws/Exec.lean ====
section
/-! SUPPORT. One lemma for each shared operation that says everything it does; the provers cite these and unfold no meaning. -/

namespace Sys2Proof.Machine

theorem pcMoved_advance (s : State) (n : Nat) : PcMoved n s (s.advance n) := by
  simp [PcMoved]

/-- `SetZN` writes Zero and Negative and keeps the other bits (41_flag_engine_alu.md R100). -/
theorem znFrom_setZN (p v : Byte) : ZNFrom v p (setZN p v) := by
  refine ⟨?_, ?_, fun n h1 h7 => ?_⟩
  · rw [getLsbD_setZN, if_neg (by decide), if_pos rfl, beq_zero_eq]
  · rw [getLsbD_setZN, if_pos rfl, getLsbD_seven]
  · rw [getLsbD_setZN, if_neg h7, if_neg h1]

/-- Everything the body of LDA and its `pc` advance do. -/
theorem State.loadA_effect (s : State) (v : Byte) (n : Nat) : LoadsA v n s ((s.loadA v).advance n) :=
  ⟨rfl, znFrom_setZN _ _, rfl, rfl, rfl, rfl, by simp [PcMoved, State.loadA], fun _ => rfl⟩

/-- Everything the bodies of TAX and INX and their `pc` advance do. -/
theorem State.loadX_effect (s : State) (v : Byte) (n : Nat) : LoadsX v n s ((s.loadX v).advance n) :=
  ⟨rfl, znFrom_setZN _ _, rfl, rfl, rfl, rfl, by simp [PcMoved, State.loadX], fun _ => rfl⟩

/-- Everything BRK without stack effects does. -/
theorem State.brkHalt_effect (s : State) : HaltsAfterOpcode s s.brkHalt :=
  ⟨rfl, pcMoved_advance s 1, rfl, rfl, rfl, rfl, rfl, fun _ => rfl⟩

/-- Everything the body of STA and its `pc` advance do. -/
theorem State.storeTo_effect (s : State) (ea : Word) (n : Nat) : StoresA ea n s ((s.storeTo ea).advance n) :=
  ⟨State.readByte_writeByte_same s ea s.a, fun _ h => State.readByte_writeByte_other s s.a h, rfl, rfl, rfl, rfl, rfl,
    rfl, by simp [PcMoved, State.storeTo]⟩

/-- The status bits of ADC, one by one (44_arithmetic.md R135). -/
theorem State.addToA_status (s : State) (m : Byte) :
    (s.addToA m).p.getLsbD 0 = (addC s.a m (s.p.getLsbD 0)).carryOut ∧
    (s.addToA m).p.getLsbD 6 = (addC s.a m (s.p.getLsbD 0)).overflow ∧
    (s.addToA m).p.getLsbD 1 = ((s.addToA m).a == 0x00#8) ∧
    (s.addToA m).p.getLsbD 7 = (s.addToA m).a.getLsbD 7 ∧
    ∀ k, 2 ≤ k → k ≤ 5 → (s.addToA m).p.getLsbD k = s.p.getLsbD k := by
  have hp : (s.addToA m).p = adcStatus s.p (addC s.a m (s.p.getLsbD 0)) := rfl
  rw [hp]
  refine ⟨getLsbD_adcStatus _ _ 0, getLsbD_adcStatus _ _ 6, getLsbD_adcStatus _ _ 1, getLsbD_adcStatus _ _ 7,
    fun k h2 h5 => ?_⟩
  rw [getLsbD_adcStatus, if_neg (by omega), if_neg (by omega), if_neg (by omega), if_neg (by omega)]

/-- Everything the body of ADC and its `pc` advance do. -/
theorem State.addToA_effect (s : State) (m : Byte) (n : Nat) : AddsToA m n s ((s.addToA m).advance n) := by
  obtain ⟨h0, h6, h1, h7, hk⟩ := s.addToA_status m
  refine ⟨addC_result_toNat _ _ _, h0, h6.trans (addC_overflow _ _ _), h1.trans (beq_zero_eq _),
    h7.trans (getLsbD_seven _), hk, rfl, rfl, rfl, rfl, by simp [PcMoved, State.addToA], fun _ => rfl⟩

/-- One push: its cell, the cells it leaves, and the stack pointer (45_control_brk.md R152). -/
@[simp] theorem State.pushByte_readByte (s : State) (v : Byte) (w : Word) :
    (s.pushByte v).readByte w = if w = Config.stackPage + zext16 s.sp then v else s.readByte w := by
  rw [State.pushByte, State.setSp_readByte, State.readByte_writeByte]

@[simp] theorem State.pushByte_sp (s : State) (v : Byte) : (s.pushByte v).sp = s.sp - 1#8 := by
  rw [State.pushByte, State.setSp_sp]

@[simp] theorem State.pushByte_a (s : State) (v : Byte) : (s.pushByte v).a = s.a := by
  rw [State.pushByte, State.setSp_a, State.writeByte_a]

@[simp] theorem State.pushByte_x (s : State) (v : Byte) : (s.pushByte v).x = s.x := by
  rw [State.pushByte, State.setSp_x, State.writeByte_x]

@[simp] theorem State.pushByte_y (s : State) (v : Byte) : (s.pushByte v).y = s.y := by
  rw [State.pushByte, State.setSp_y, State.writeByte_y]

@[simp] theorem State.pushByte_p (s : State) (v : Byte) : (s.pushByte v).p = s.p := by
  rw [State.pushByte, State.setSp_p, State.writeByte_p]

@[simp] theorem State.pushByte_pc (s : State) (v : Byte) : (s.pushByte v).pc = s.pc := by
  rw [State.pushByte, State.setSp_pc, State.writeByte_pc]

@[simp] theorem State.pushByte_run (s : State) (v : Byte) : (s.pushByte v).run = s.run := by
  rw [State.pushByte, State.setSp_run, State.writeByte_run]

/-- The registers after the three pushes. -/
theorem State.brkPush_regs (s : State) :
    s.brkPush.a = s.a ∧ s.brkPush.x = s.x ∧ s.brkPush.y = s.y ∧ s.brkPush.p = s.p ∧
      s.brkPush.sp = s.sp - 1#8 - 1#8 - 1#8 := by
  simp only [State.brkPush, State.pushByte_a, State.pushByte_x, State.pushByte_y, State.pushByte_p, State.pushByte_sp,
    and_self]

/-- Memory after the three pushes. -/
theorem State.brkPush_readByte (s : State) (w : Word) :
    s.brkPush.readByte w =
      if w = Config.stackPage + zext16 (s.sp - 1#8 - 1#8) then s.p ||| 0x30#8
      else if w = Config.stackPage + zext16 (s.sp - 1#8) then lowByte (s.pc + 2#16)
      else if w = Config.stackPage + zext16 s.sp then highByte (s.pc + 2#16)
      else s.readByte w := by
  simp only [State.brkPush, State.pushByte_readByte, State.pushByte_sp]

/-- BRK with stack effects changes no memory after its pushes. -/
theorem State.brkStack_readByte (s : State) (w : Word) : s.brkStack.readByte w = s.brkPush.readByte w := by
  simp only [State.brkStack, State.setRun_readByte, State.setPc_readByte, State.setP_readByte]

/-- The program counter BRK with stack effects takes from the vector. -/
theorem State.brkStack_pc (s : State) : s.brkStack.pc = s.brkPush.readWord Config.brkVector := by
  simp only [State.brkStack, State.setRun_pc, State.setPc_pc, State.readWord, State.setP_readByte]

/-- The registers after BRK with stack effects. -/
theorem State.brkStack_regs (s : State) :
    s.brkStack.a = s.a ∧ s.brkStack.x = s.x ∧ s.brkStack.y = s.y ∧ s.brkStack.run = .halted ∧
      s.brkStack.sp = s.sp - 1#8 - 1#8 - 1#8 ∧
      s.brkStack.p = putFlag (putFlag s.p .brk true) .interruptDisable true := by
  obtain ⟨ha, hx, hy, hp, hsp⟩ := s.brkPush_regs
  simp only [State.brkStack, State.setRun_a, State.setPc_a, State.setP_a, State.setRun_x, State.setPc_x, State.setP_x,
    State.setRun_y, State.setPc_y, State.setP_y, State.setRun_run, State.setRun_sp, State.setPc_sp, State.setP_sp,
    State.setRun_p, State.setPc_p, State.setP_p, ha, hx, hy, hp, hsp, and_self]

/-- The two `pc` advances of a step are one. -/
theorem skipOperands_advance (w : Word) (n : Nat) :
    w + 1#16 + BitVec.ofNat 16 n - 1#16 = w + BitVec.ofNat 16 n := by
  rw [BitVec.add_assoc, BitVec.add_comm 1#16, ← BitVec.add_assoc, BitVec.add_sub_cancel]

end Sys2Proof.Machine
end

