-- ==== Sys2Proof/Laws/Loop.lean ====
section
/-! SUPPORT. What one step of the Execution Loop can do, said once: the rows of the table, the bodies with their two `pc`
advances joined, and the inversion lemma that every whole-machine claim goes through. -/

namespace Sys2Proof.Machine

/-- All the forms the decoder knows. -/
abbrev allForms : List (Byte × InstrForm) := formsOthers ++ formsAdc ++ formsSta ++ formsLda

/-- A byte is one of the 26 opcodes of R64, or neither the table nor the decoder has it. -/
theorem opcode_cases : ∀ op : Byte,
    (OpTable.lookup defaultTable op = none ∧ (findForm allForms op).isNone = true) ∨
      op ∈ [0x00#8, 0xAA#8, 0xE8#8, 0x61#8, 0x65#8, 0x69#8, 0x6D#8, 0x71#8, 0x75#8, 0x79#8, 0x7D#8, 0x81#8, 0x85#8,
        0x8D#8, 0x91#8, 0x95#8, 0x99#8, 0x9D#8, 0xA1#8, 0xA5#8, 0xA9#8, 0xAD#8, 0xB1#8, 0xB5#8, 0xB9#8, 0xBD#8] := by
  decide +revert

theorem decodeOp_of_isNone {op : Byte} (h : (findForm allForms op).isNone = true) (b1 b2 : Byte) :
    decodeOp op b1 b2 = .error (.unrecognizedOpcode op) := by
  rw [decodeOp, Option.isNone_iff_eq_none.1 h]

theorem skip_load (s : State) (ea : Word) (n : Nat) :
    ((s.advance 1).loadFrom ea).skipOperands n = (s.loadFrom ea).advance n :=
  State.ext_fields rfl rfl rfl rfl (skipOperands_advance s.pc n) rfl rfl rfl

theorem skip_store (s : State) (ea : Word) (n : Nat) :
    ((s.advance 1).storeTo ea).skipOperands n = (s.storeTo ea).advance n :=
  State.ext_fields rfl rfl rfl rfl (skipOperands_advance s.pc n) rfl rfl rfl

theorem skip_add (s : State) (ea : Word) (n : Nat) :
    ((s.advance 1).addFrom ea).skipOperands n = (s.addFrom ea).advance n :=
  State.ext_fields rfl rfl rfl rfl (skipOperands_advance s.pc n) rfl rfl rfl

theorem skip_tax (s : State) (n : Nat) :
    (s.advance 1).transferAToX.skipOperands n = s.transferAToX.advance n :=
  State.ext_fields rfl rfl rfl rfl (skipOperands_advance s.pc n) rfl rfl rfl

theorem skip_inx (s : State) (n : Nat) : (s.advance 1).incrementX.skipOperands n = s.incrementX.advance n :=
  State.ext_fields rfl rfl rfl rfl (skipOperands_advance s.pc n) rfl rfl rfl

/-- The step of a running core whose opcode byte has a row is the dispatch of that row. -/
theorem stepWith_of_lookup {p : Params} {e : OpRecord} {s : State} (hr : s.run = .running)
    (hl : OpTable.lookup p.optable (s.readByte s.pc) = some e) :
    stepWith p s = outcomeOf (dispatchRow p e (s.readByte s.pc) s.pc (s.advance 1)) := by
  simp only [stepWith, hr, stepRunning, hl]

/-- What a successful dispatch of a row does, from a state with `pc` at the opcode byte. -/
inductive RowEffect (p : Params) (e : OpRecord) (s : State) : State → Prop
  | lda (ea : Word) (hm : e.mnemonic = .lda) (hea : effectiveAddress e.mode (s.advance 1) = some ea) :
      RowEffect p e s ((s.loadFrom ea).advance e.length)
  | sta (ea : Word) (hm : e.mnemonic = .sta) (hea : effectiveAddress e.mode (s.advance 1) = some ea) :
      RowEffect p e s ((s.storeTo ea).advance e.length)
  | adc (ea : Word) (hm : e.mnemonic = .adc) (hea : effectiveAddress e.mode (s.advance 1) = some ea) :
      RowEffect p e s ((s.addFrom ea).advance e.length)
  | tax (hm : e.mnemonic = .tax) : RowEffect p e s (s.transferAToX.advance e.length)
  | inx (hm : e.mnemonic = .inx) : RowEffect p e s (s.incrementX.advance e.length)
  | brk (hm : e.mnemonic = .brk) : RowEffect p e s (s.brkWith p.brkStackEffects)

theorem withOperand_ok {e : OpRecord} {op : Byte} {a0 : Word} {s t : State} {body : State → Word → State}
    (h : withOperand e op a0 s body = .ok t) :
    ∃ ea, effectiveAddress e.mode s = some ea ∧ t = (body s ea).skipOperands e.length := by
  cases hea : effectiveAddress e.mode s with
  | none => simp [withOperand, hea] at h
  | some ea => exact ⟨ea, rfl, by simpa [withOperand, hea] using h.symm⟩

theorem dispatchRow_ok {p : Params} {e : OpRecord} {op : Byte} {s t : State}
    (h : dispatchRow p e op s.pc (s.advance 1) = .ok t) : RowEffect p e s t := by
  cases hm : e.mnemonic <;> simp only [dispatchRow, hm] at h
  case lda => obtain ⟨ea, hea, rfl⟩ := withOperand_ok h; rw [skip_load]; exact .lda ea hm hea
  case sta => obtain ⟨ea, hea, rfl⟩ := withOperand_ok h; rw [skip_store]; exact .sta ea hm hea
  case adc => obtain ⟨ea, hea, rfl⟩ := withOperand_ok h; rw [skip_add]; exact .adc ea hm hea
  case tax => cases h; rw [skip_tax]; exact .tax hm
  case inx => cases h; rw [skip_inx]; exact .inx hm
  case brk => cases h; exact .brk hm

/-- Everything a step can do when it answers a next state, for any parameters. -/
theorem stepWith_next {p : Params} {s t : State} (h : stepWith p s = .next t) :
    s.run = .running ∧ ∃ e, OpTable.lookup p.optable (s.readByte s.pc) = some e ∧ RowEffect p e s t := by
  cases hr : s.run with
  | halted => simp [stepWith, hr, noStep] at h
  | running =>
    refine ⟨rfl, ?_⟩
    cases he : OpTable.lookup p.optable (s.readByte s.pc) with
    | none => simp [stepWith, hr, stepRunning, he, outcomeOf] at h
    | some e =>
      refine ⟨e, rfl, ?_⟩
      cases hd : dispatchRow p e (s.readByte s.pc) s.pc (s.advance 1) with
      | error f => simp [stepWith, hr, stepRunning, he, hd, outcomeOf] at h
      | ok u =>
        have : u = t := by simpa [stepWith, hr, stepRunning, he, hd, outcomeOf] using h
        exact this ▸ dispatchRow_ok hd

/-- The names the statements use for the row at `pc`. -/
theorem State.mnemonicAt_of_lookup {s : State} {e : OpRecord}
    (h : OpTable.lookup defaultTable (s.readByte s.pc) = some e) : s.mnemonicAt = some e.mnemonic := by
  rw [State.mnemonicAt, h]; rfl

theorem State.targetAt_of_lookup {s : State} {e : OpRecord}
    (h : OpTable.lookup defaultTable (s.readByte s.pc) = some e) :
    s.targetAt = effectiveAddress e.mode (s.advance 1) := by
  rw [State.targetAt, State.modeAt, h]; rfl

/-- The word operand at `pc + 1`, from the bytes the fetch reads. -/
theorem State.readWord_operand (s : State) :
    (s.advance 1).readWord (s.pc + 1#16) = mkWord (s.readByte (s.pc + 2#16)) (s.readByte (s.pc + 1#16)) := by
  rw [State.readWord, State.advance_readByte, State.advance_readByte, BitVec.add_assoc]
  rfl

/-- The unfolding of a run (46_execution_loop.md R165). -/
theorem runFor_of_halted {p : Params} {n : Nat} {s : State} (h : s.run = .halted) : runFor p n s = .halted s := by
  cases n <;> simp only [runFor, h]

theorem runFor_succ_of_running {p : Params} {n : Nat} {s : State} (h : s.run = .running) :
    runFor p (n + 1) s =
      match stepRunning p s with
      | .error f => .faulted f s
      | .ok t => runFor p n t := by
  rw [runFor]; simp only [h] <;> rfl

/-- The resolver fails for NoneAddressing only (40_addressing_modes.md R91). -/
theorem effectiveAddress_eq_none {m : Mode} {s : State} : effectiveAddress m s = none ↔ m = .noneAddressing := by
  cases m <;> simp [effectiveAddress]

end Sys2Proof.Machine
end

