-- ==== Sys2Proof/Laws/PerInstr.lean ====
section
/-! SUPPORT. The per-instruction family EncodeShape: the encoding has the instruction's length, and its first byte selects
a row of the default table whose length is the same (30_encoding.md R60, R63, R64). -/

namespace Sys2Proof.Laws.EncodeShape

/-- The encoding agrees with the row of the table its first byte selects. -/
def Statement (i : Instr) : Prop :=
  (encode i).length = i.length ∧
    (OpTable.lookup defaultTable ((encode i).getD 0 0x00#8)).map OpRecord.length = some i.length

theorem ldaImmediate (b1 : Byte) : Statement (.ldaImmediate b1) := ⟨rfl, rfl⟩

theorem ldaZeroPage (b1 : Byte) : Statement (.ldaZeroPage b1) := ⟨rfl, rfl⟩

theorem ldaZeroPageX (b1 : Byte) : Statement (.ldaZeroPageX b1) := ⟨rfl, rfl⟩

theorem ldaAbsolute (operand : Word) : Statement (.ldaAbsolute operand) := ⟨rfl, rfl⟩

theorem ldaAbsoluteX (operand : Word) : Statement (.ldaAbsoluteX operand) := ⟨rfl, rfl⟩

theorem ldaAbsoluteY (operand : Word) : Statement (.ldaAbsoluteY operand) := ⟨rfl, rfl⟩

theorem ldaIndirectX (b1 : Byte) : Statement (.ldaIndirectX b1) := ⟨rfl, rfl⟩

theorem ldaIndirectY (b1 : Byte) : Statement (.ldaIndirectY b1) := ⟨rfl, rfl⟩

theorem staZeroPage (b1 : Byte) : Statement (.staZeroPage b1) := ⟨rfl, rfl⟩

theorem staZeroPageX (b1 : Byte) : Statement (.staZeroPageX b1) := ⟨rfl, rfl⟩

theorem staAbsolute (operand : Word) : Statement (.staAbsolute operand) := ⟨rfl, rfl⟩

theorem staAbsoluteX (operand : Word) : Statement (.staAbsoluteX operand) := ⟨rfl, rfl⟩

theorem staAbsoluteY (operand : Word) : Statement (.staAbsoluteY operand) := ⟨rfl, rfl⟩

theorem staIndirectX (b1 : Byte) : Statement (.staIndirectX b1) := ⟨rfl, rfl⟩

theorem staIndirectY (b1 : Byte) : Statement (.staIndirectY b1) := ⟨rfl, rfl⟩

theorem tax : Statement (.tax) := ⟨rfl, rfl⟩

theorem inx : Statement (.inx) := ⟨rfl, rfl⟩

theorem adcImmediate (b1 : Byte) : Statement (.adcImmediate b1) := ⟨rfl, rfl⟩

theorem adcZeroPage (b1 : Byte) : Statement (.adcZeroPage b1) := ⟨rfl, rfl⟩

theorem adcZeroPageX (b1 : Byte) : Statement (.adcZeroPageX b1) := ⟨rfl, rfl⟩

theorem adcAbsolute (operand : Word) : Statement (.adcAbsolute operand) := ⟨rfl, rfl⟩

theorem adcAbsoluteX (operand : Word) : Statement (.adcAbsoluteX operand) := ⟨rfl, rfl⟩

theorem adcAbsoluteY (operand : Word) : Statement (.adcAbsoluteY operand) := ⟨rfl, rfl⟩

theorem adcIndirectX (b1 : Byte) : Statement (.adcIndirectX b1) := ⟨rfl, rfl⟩

theorem adcIndirectY (b1 : Byte) : Statement (.adcIndirectY b1) := ⟨rfl, rfl⟩

theorem brk : Statement (.brk) := ⟨rfl, rfl⟩

end Sys2Proof.Laws.EncodeShape
end

