-- ==== Sys2Proof/Tests/Slice0.lean ====
section
/-! SUPPORT. Tests. Expected values come from spec/95_test_vectors.md (the vector is named beside each), from the worked
examples of the opcode rules, or from the encodings of 30_encoding.md R60 and R64 written out bit by bit; the last part
shows, for each statement with hypotheses, a state and operands that meet them. -/

namespace Sys2Proof.Tests
open Sys2Proof Sys2Proof.Machine

/-- A running state with the given registers and memory cells. -/
def mk (pc a x y p : Nat) (cells : List (Nat × Nat)) : State :=
  cells.foldl (fun s c => s.writeByte (BitVec.ofNat 16 c.1) (BitVec.ofNat 8 c.2))
    { State.reset with
      pc := BitVec.ofNat 16 pc, a := BitVec.ofNat 8 a, x := BitVec.ofNat 8 x, y := BitVec.ofNat 8 y, p := BitVec.ofNat 8 p }

/-- A, X, Y, P and pc, and whether the core is Halted. -/
structure View where
  a : Nat
  x : Nat
  y : Nat
  p : Nat
  pc : Nat
  halted : Bool
  deriving DecidableEq, Repr

/-- The view of a state. -/
def viewOf (t : State) : View := ⟨t.a.toNat, t.x.toNat, t.y.toNat, t.p.toNat, t.pc.toNat, t.run == .halted⟩

/-- What a step leaves in the registers. -/
def regsOf : Host.Outcome State Fault Refusal → Option View
  | .next t => some (viewOf t)
  | .fault _ => none
  | .refused _ => none

/-- What a step leaves at a memory address. -/
def cellOf (n : Nat) : Host.Outcome State Fault Refusal → Option Nat
  | .next t => some (t.byteAt n).toNat
  | .fault _ => none
  | .refused _ => none

/-- The fault a step ends in. -/
def faultOf : Host.Outcome State Fault Refusal → Option Fault
  | .next _ => none
  | .fault f => some f
  | .refused _ => none

/-- The instruction a list of bytes decodes to. -/
def instrOf (bytes : List Byte) : Option Instr :=
  match decode bytes with
  | .ok (i, _) => some i
  | .error _ => none

/-! Well-formedness: an ill-formed table for each check. -/

theorem test_wf_default_table : OpTable.wf defaultTable = true := by decide

theorem test_wf_refuses_two_rows_for_one_byte :
    OpTable.wf [opRow 0xAA#8 .tax .noneAddressing 1 2, opRow 0xAA#8 .inx .noneAddressing 1 2] = false := by decide

theorem test_wf_refuses_wrong_length : OpTable.wf [opRow 0xA9#8 .lda .immediate 3 2] = false := by decide

theorem test_wf_refuses_operand_instruction_without_mode :
    OpTable.wf [opRow 0xA9#8 .lda .noneAddressing 1 2] = false := by decide

theorem test_wf_refuses_mode_on_operandless_instruction :
    OpTable.wf [opRow 0xAA#8 .tax .immediate 2 2] = false := by decide

theorem test_wf_refuses_store_immediate : OpTable.wf [opRow 0x89#8 .sta .immediate 2 2] = false := by decide

theorem test_memory_wf_refuses_unsorted : Memory.wf [(2, 1#8), (1, 1#8)] = false := by decide

theorem test_memory_wf_refuses_listed_zero : Memory.wf [(1, 0#8)] = false := by decide

theorem test_memory_wf_refuses_address_outside : Memory.wf [(65536, 1#8)] = false := by decide

/-! Decoding: every constructor from a word written out from R60 and R64. -/

theorem test_decode_lda :
    instrOf [0b10101001#8, 0x05#8] = some (.ldaImmediate 0x05#8) ∧
    instrOf [0b10100101#8, 0x10#8] = some (.ldaZeroPage 0x10#8) ∧
    instrOf [0b10110101#8, 0x20#8] = some (.ldaZeroPageX 0x20#8) ∧
    instrOf [0b10101101#8, 0x00#8, 0x02#8] = some (.ldaAbsolute 0x0200#16) ∧
    instrOf [0b10111101#8, 0x34#8, 0x12#8] = some (.ldaAbsoluteX 0x1234#16) ∧
    instrOf [0b10111001#8, 0xF0#8, 0x12#8] = some (.ldaAbsoluteY 0x12F0#16) ∧
    instrOf [0b10100001#8, 0xFE#8] = some (.ldaIndirectX 0xFE#8) ∧
    instrOf [0b10110001#8, 0x24#8] = some (.ldaIndirectY 0x24#8) := by decide

theorem test_decode_sta :
    instrOf [0b10000101#8, 0x10#8] = some (.staZeroPage 0x10#8) ∧
    instrOf [0b10010101#8, 0x21#8] = some (.staZeroPageX 0x21#8) ∧
    instrOf [0b10001101#8, 0x00#8, 0x02#8] = some (.staAbsolute 0x0200#16) ∧
    instrOf [0b10011101#8, 0xFF#8, 0xFF#8] = some (.staAbsoluteX 0xFFFF#16) ∧
    instrOf [0b10011001#8, 0x00#8, 0x03#8] = some (.staAbsoluteY 0x0300#16) ∧
    instrOf [0b10000001#8, 0x20#8] = some (.staIndirectX 0x20#8) ∧
    instrOf [0b10010001#8, 0x40#8] = some (.staIndirectY 0x40#8) := by decide

theorem test_decode_adc :
    instrOf [0b01101001#8, 0x01#8] = some (.adcImmediate 0x01#8) ∧
    instrOf [0b01100101#8, 0x10#8] = some (.adcZeroPage 0x10#8) ∧
    instrOf [0b01110101#8, 0xFF#8] = some (.adcZeroPageX 0xFF#8) ∧
    instrOf [0b01101101#8, 0x00#8, 0x02#8] = some (.adcAbsolute 0x0200#16) ∧
    instrOf [0b01111101#8, 0x34#8, 0x12#8] = some (.adcAbsoluteX 0x1234#16) ∧
    instrOf [0b01111001#8, 0x34#8, 0x12#8] = some (.adcAbsoluteY 0x1234#16) ∧
    instrOf [0b01100001#8, 0x20#8] = some (.adcIndirectX 0x20#8) ∧
    instrOf [0b01110001#8, 0x24#8] = some (.adcIndirectY 0x24#8) := by decide

theorem test_decode_others :
    instrOf [0b10101010#8] = some .tax ∧ instrOf [0b11101000#8] = some .inx ∧ instrOf [0b00000000#8] = some .brk := by
  decide

/-- R67: legal 6502 opcodes outside the six are unrecognized here. -/
theorem test_decode_rejects :
    [0xEA#8, 0x4C#8, 0x20#8, 0xA2#8, 0xA0#8, 0x18#8, 0x38#8, 0xE9#8, 0x02#8, 0xFF#8].all
      (fun op => (instrOf [op, 0x00#8, 0x00#8]).isNone) = true := by decide

theorem test_decode_truncated : instrOf [0xAD#8, 0x00#8] = none ∧ instrOf [] = none := by decide

/-- Bits numbered as the opcode table numbers them: byte 0 in bits 7..0. -/
theorem test_decodeTableWord :
    decodeTableWord 8 0xE8 = some .inx ∧ decodeTableWord 16 0x05A9 = some (.ldaImmediate 0x05#8) ∧
    decodeTableWord 24 0x0200AD = some (.ldaAbsolute 0x0200#16) ∧ decodeTableWord 8 0x02 = none := by decide

theorem test_withFetchWord_runs_first :
    regsOf (step (State.reset.withFetchWord 16 0x05A9)) = some ⟨5, 0, 0, 0, 2, false⟩ ∧
    regsOf (step (State.reset.withFetchWord 8 0x00)) = some ⟨0, 0, 0, 0, 1, true⟩ ∧
    faultOf (step (State.reset.withFetchWord 8 0xEA)) = some (.illegalOpcode 0xEA#8 0x0000#16) := by decide

/-! One step of each instruction, from section 3 of the vectors. -/

/-- V4. -/
theorem test_ldaImmediate_keeps_other_flags :
    regsOf (step (mk 0x8000 0 0 0 0x7D [(0x8000, 0xA9), (0x8001, 0xFF)])) = some ⟨0xFF, 0, 0, 0xFD, 0x8002, false⟩ := by
  decide

/-- V5. -/
theorem test_ldaImmediate_straddles_top :
    regsOf (step (mk 0xFFFF 0 0 0 0 [(0xFFFF, 0xA9), (0, 0x42)])) = some ⟨0x42, 0, 0, 0, 1, false⟩ := by decide

/-- V7. -/
theorem test_ldaZeroPage_zero :
    regsOf (step (mk 0x8000 1 0 0 0 [(0x8000, 0xA5), (0x8001, 0xFF), (0xFF, 0)])) = some ⟨0, 0, 0, 2, 0x8002, false⟩ := by
  decide

/-- V9. -/
theorem test_ldaZeroPageX_wraps :
    regsOf (step (mk 0x8000 0 2 0 0 [(0x8000, 0xB5), (0x8001, 0xFF), (1, 0x80), (0x101, 0x11)])) =
      some ⟨0x80, 2, 0, 0x80, 0x8002, false⟩ := by decide

/-- V11. -/
theorem test_ldaAbsolute_straddles_top :
    regsOf (step (mk 0xFFFE 0 0 0 0 [(0xFFFE, 0xAD), (0xFFFF, 0x34), (0, 0x12), (0x1234, 0x9A)])) =
      some ⟨0x9A, 0, 0, 0x80, 1, false⟩ := by decide

/-- V13. -/
theorem test_ldaAbsoluteX_wraps :
    regsOf (step (mk 0x8000 0 2 0 0 [(0x8000, 0xBD), (0x8001, 0xFF), (0x8002, 0xFF), (1, 0xC3)])) =
      some ⟨0xC3, 2, 0, 0x80, 0x8003, false⟩ := by decide

/-- V15. -/
theorem test_ldaAbsoluteY_crosses_page :
    regsOf (step (mk 0x8000 0 0 0x20 0 [(0x8000, 0xB9), (0x8001, 0xF0), (0x8002, 0x12), (0x1310, 0xC3)])) =
      some ⟨0xC3, 0, 0x20, 0x80, 0x8003, false⟩ := by decide

/-- V18. -/
theorem test_ldaIndirectX_pointer_wraps :
    regsOf (step (mk 0x8000 0 1 0 0
      [(0x8000, 0xA1), (0x8001, 0xFE), (0, 0x12), (0xFF, 0x34), (0x100, 0xEE), (0x1234, 0x99), (0xEE34, 0x11)])) =
      some ⟨0x99, 1, 0, 0x80, 0x8002, false⟩ := by decide

/-- V19. -/
theorem test_ldaIndirectX_index_wraps :
    regsOf (step (mk 0x8000 0 1 0 0 [(0x8000, 0xA1), (0x8001, 0xFF), (0, 0x78), (1, 0x56), (0x5678, 0x0F)])) =
      some ⟨0x0F, 1, 0, 0, 0x8002, false⟩ := by decide

/-- V21. -/
theorem test_ldaIndirectY_pointer_wraps :
    regsOf (step (mk 0x8000 0 0 1 0
      [(0x8000, 0xB1), (0x8001, 0xFF), (0, 0x12), (0xFF, 0xFF), (0x100, 0xEE), (0x1300, 0x42), (0xEF00, 0x11)])) =
      some ⟨0x42, 0, 1, 0, 0x8002, false⟩ := by decide

/-- V22. -/
theorem test_ldaIndirectY_sum_wraps :
    regsOf (step (mk 0x8000 0 0 1 0 [(0x8000, 0xB1), (0x8001, 0x40), (0, 0x5A), (0x40, 0xFF), (0x41, 0xFF)])) =
      some ⟨0x5A, 0, 1, 0, 0x8002, false⟩ := by decide

/-- V23. -/
theorem test_staZeroPage :
    regsOf (step (mk 0x8000 5 0 0 0xC3 [(0x8000, 0x85), (0x8001, 0x10)])) = some ⟨5, 0, 0, 0xC3, 0x8002, false⟩ ∧
    cellOf 0x10 (step (mk 0x8000 5 0 0 0xC3 [(0x8000, 0x85), (0x8001, 0x10)])) = some 5 := by decide

/-- V25. -/
theorem test_staZeroPageX_wraps :
    cellOf 0 (step (mk 0x8000 0xAB 1 0 0 [(0x8000, 0x95), (0x8001, 0xFF)])) = some 0xAB := by decide

/-- V27: a store into its own operand byte, in the ROM range. -/
theorem test_staAbsolute_own_operand :
    cellOf 0x8001 (step (mk 0x8000 0xEA 0 0 0 [(0x8000, 0x8D), (0x8001, 1), (0x8002, 0x80)])) = some 0xEA ∧
    regsOf (step (mk 0x8000 0xEA 0 0 0 [(0x8000, 0x8D), (0x8001, 1), (0x8002, 0x80)])) =
      some ⟨0xEA, 0, 0, 0, 0x8003, false⟩ := by decide

/-- V28. -/
theorem test_staAbsoluteX_wraps :
    cellOf 1 (step (mk 0x8000 0xAA 2 0 0 [(0x8000, 0x9D), (0x8001, 0xFF), (0x8002, 0xFF)])) = some 0xAA := by decide

/-- V30. -/
theorem test_staAbsoluteY :
    cellOf 0x1310 (step (mk 0x8000 0x11 0 0x20 0 [(0x8000, 0x99), (0x8001, 0xF0), (0x8002, 0x12)])) = some 0x11 := by
  decide

/-- V32. -/
theorem test_staIndirectX_pointer_wraps :
    cellOf 0x1234 (step (mk 0x8000 0x77 1 0 0 [(0x8000, 0x81), (0x8001, 0xFE), (0, 0x12), (0xFF, 0x34), (0x100, 0xEE)])) =
      some 0x77 := by decide

/-- V33. -/
theorem test_staIndirectY :
    cellOf 0x308 (step (mk 0x8000 0x66 0 0x10 0 [(0x8000, 0x91), (0x8001, 0x40), (0x40, 0xF8), (0x41, 0x02)])) =
      some 0x66 := by decide

/-- V34. -/
theorem test_staIndirectY_sum_wraps :
    cellOf 0 (step (mk 0x8000 0x66 0 1 0 [(0x8000, 0x91), (0x8001, 0x40), (0x40, 0xFF), (0x41, 0xFF)])) =
      some 0x66 := by decide

/-- V37. -/
theorem test_tax_keeps_carry_and_overflow :
    regsOf (step (mk 0x8000 0xC0 0 0 0x41 [(0x8000, 0xAA)])) = some ⟨0xC0, 0xC0, 0, 0xC1, 0x8001, false⟩ := by decide

/-- V36. -/
theorem test_tax_zero : regsOf (step (mk 0x8000 0 0x55 0 0x80 [(0x8000, 0xAA)])) = some ⟨0, 0, 0, 2, 0x8001, false⟩ := by
  decide

/-- V39. -/
theorem test_inx_wraps : regsOf (step (mk 0x8000 0 0xFF 0 0x80 [(0x8000, 0xE8)])) = some ⟨0, 0, 0, 2, 0x8001, false⟩ := by
  decide

/-- V41. -/
theorem test_inx_pc_wraps : regsOf (step (mk 0xFFFF 0 0 0 0 [(0xFFFF, 0xE8)])) = some ⟨0, 1, 0, 0, 0, false⟩ := by decide

/-- V48. -/
theorem test_adcImmediate_carry_cancels_overflow :
    regsOf (step (mk 0x8000 0x80 0 0 1 [(0x8000, 0x69), (0x8001, 0xFF)])) = some ⟨0x80, 0, 0, 0x81, 0x8002, false⟩ := by
  decide

/-- V50: Decimal set, still binary. -/
theorem test_adcImmediate_ignores_decimal :
    regsOf (step (mk 0x8000 9 0 0 8 [(0x8000, 0x69), (0x8001, 9)])) = some ⟨0x12, 0, 0, 8, 0x8002, false⟩ := by decide

/-- V52. -/
theorem test_adcZeroPage :
    regsOf (step (mk 0x8000 3 0 0 0 [(0x8000, 0x65), (0x8001, 0x10), (0x10, 5)])) = some ⟨8, 0, 0, 0, 0x8002, false⟩ := by
  decide

/-- V53. -/
theorem test_adcZeroPageX_wraps :
    regsOf (step (mk 0x8000 0xFF 1 0 1 [(0x8000, 0x75), (0x8001, 0xFF)])) = some ⟨0, 1, 0, 3, 0x8002, false⟩ := by decide

/-- V54. -/
theorem test_adcAbsolute :
    regsOf (step (mk 0x8000 0x80 0 0 0 [(0x8000, 0x6D), (0x8001, 0), (0x8002, 2), (0x200, 0x80)])) =
      some ⟨0, 0, 0, 0x43, 0x8003, false⟩ := by decide

/-- V55. -/
theorem test_adcAbsoluteX :
    regsOf (step (mk 0x8000 0x50 0x10 0 0 [(0x8000, 0x7D), (0x8001, 0x34), (0x8002, 0x12), (0x1244, 0x50)])) =
      some ⟨0xA0, 0x10, 0, 0xC0, 0x8003, false⟩ := by decide

/-- V56, with Y = 1 and the operand one lower, so that the index acts. -/
theorem test_adcAbsoluteY :
    regsOf (step (mk 0x8000 0x50 0 1 0 [(0x8000, 0x79), (0x8001, 0xFF), (0x8002, 0x02), (0x300, 0xD0)])) =
      some ⟨0x20, 0, 1, 1, 0x8003, false⟩ := by decide

/-- V57. -/
theorem test_adcIndirectX :
    regsOf (step (mk 0x8000 1 4 0 1 [(0x8000, 0x61), (0x8001, 0x20), (0x24, 0), (0x25, 3), (0x300, 0x77)])) =
      some ⟨0x79, 4, 0, 0, 0x8002, false⟩ := by decide

/-- V58. -/
theorem test_adcIndirectY :
    regsOf (step (mk 0x8000 0xD0 0 0 0 [(0x8000, 0x71), (0x8001, 0x24), (0x24, 0), (0x25, 3), (0x300, 0x90)])) =
      some ⟨0x60, 0, 0, 0x41, 0x8002, false⟩ := by decide

/-- V59. -/
theorem test_brk_halts : regsOf (step (mk 0x8002 5 0 0 0xC3 [])) = some ⟨5, 0, 0, 0xC3, 0x8003, true⟩ := by decide

/-- V60. -/
theorem test_brk_pc_wraps : regsOf (step (mk 0xFFFF 0 0 0 0 [])) = some ⟨0, 0, 0, 0, 0, true⟩ := by decide

/-- V62. -/
theorem test_illegal_opcode :
    faultOf (step (mk 0x8000 1 0 0 0 [(0x8000, 0xEA)])) = some (.illegalOpcode 0xEA#8 0x8000#16) := by decide

/-! Parameters: the extension, custom tables (vectors B1, B2, X1, X2). -/

/-- The default machine with `BRK_STACK_EFFECTS`. -/
def stackParams : Params := { defaultParams with brkStackEffects := true }

/-- The state of vector B2. -/
def stateB2 : State := { mk 0x8002 5 0 0 0xC3 [] with sp := 0x01#8 }

/-- B1. -/
theorem test_brk_stack_effects_registers :
    regsOf (stepWith stackParams (mk 0x8002 5 0 0 0 [])) = some ⟨5, 0, 0, 0x14, 0, true⟩ := by decide

/-- B2: the stack pointer wraps inside its page. -/
theorem test_brk_stack_effects_wraps :
    regsOf (stepWith stackParams stateB2) = some ⟨5, 0, 0, 0xD7, 0, true⟩ ∧
    cellOf 0x101 (stepWith stackParams stateB2) = some 0x80 ∧ cellOf 0x100 (stepWith stackParams stateB2) = some 4 ∧
    cellOf 0x1FF (stepWith stackParams stateB2) = some 0xF3 := by decide

/-- The default machine with one row in its table. -/
def oneRow (op : Byte) (m : Mnemonic) (mode : Mode) (length : Nat) : Params :=
  { defaultParams with optable := [opRow op m mode length 2] }

/-- X1. -/
theorem test_custom_lda_without_mode :
    faultOf (stepWith (oneRow 0xA9#8 .lda .noneAddressing 1) (mk 0x8000 0x33 0 0 0 [(0x8000, 0xA9)])) =
      some (.addressingModeFault 0xA9#8 0x8000#16) := by decide

/-- X2. -/
theorem test_custom_tax_ignores_mode :
    regsOf (stepWith (oneRow 0xAA#8 .tax .immediate 1) (mk 0x8000 7 0 0 0 [(0x8000, 0xAA)])) =
      some ⟨7, 7, 0, 0, 0x8001, false⟩ := by decide

/-- 30_encoding.md R71 case (d). -/
theorem test_custom_sta_immediate :
    cellOf 0x8001 (stepWith (oneRow 0x89#8 .sta .immediate 2) (mk 0x8000 7 0 0 0 [(0x8000, 0x89)])) = some 7 := by
  decide

/-- What became of a provider's table. -/
def refusedText (raw : List (Byte × RawRecord)) : Option Refusal :=
  match takeTable raw defaultParams with
  | .ok _ => none
  | .error r => some r

/-- 30_encoding.md R71 case (e). -/
theorem test_custom_mnemonic_refused :
    refusedText [(0xA2#8, ⟨"LDX", .immediate, 2, ⟨2, false⟩⟩)] = some (.unknownMnemonic "LDX") := by decide

/-! Memory, resolver, loader. -/

/-- M3 and M5: 16-bit accesses wrap at the top of the space. -/
theorem test_word_wraps :
    ((mk 0 0 0 0 0 [(0xFFFF, 0xCD), (0, 0xAB)]).readWord 0xFFFF#16) = 0xABCD#16 ∧
    ((State.reset.writeWord 0xFFFF#16 0x1234#16).mem = [(0, 0x12#8), (0xFFFF, 0x34#8)]) := by decide

theorem test_write_zero_unlists : (((mk 0 0 0 0 0 [(5, 7)]).writeByte 5#16 0#8).mem) = [] := by decide

/-- A8. -/
theorem test_resolver_zeroPageY :
    effectiveAddress .zeroPageY (mk 0x8001 0 0 0x20 0 [(0x8001, 0xF0)]) = some 0x0010#16 := by decide

/-- A23. -/
theorem test_resolver_none : effectiveAddress .noneAddressing State.reset = none := by decide

/-- The registers of a run's end. -/
def endOf : RunResult → View
  | .halted t => viewOf t
  | .faulted _ t => viewOf t
  | .stillRunning t => viewOf t

/-- S8. -/
theorem test_load_and_run_S8 :
    endOf (loadAndRun defaultParams 6 [0xA9#8, 0xFF#8, 0xAA#8, 0xE8#8, 0xE8#8, 0x00#8] (createWith defaultParams)) =
      ⟨0xFF, 1, 0, 0, 0x8006, true⟩ := by decide

/-- P6: the state reported with a fault is the one before the faulting step. -/
theorem test_load_and_run_P6 :
    endOf (loadAndRun defaultParams 6 [0xA9#8, 0x01#8, 0x02#8] (createWith defaultParams)) =
      ⟨1, 0, 0, 0, 0x8002, false⟩ := by decide

/-- G3. -/
theorem test_reset_from_halted :
    regsOf (hostStep defaultParams .reset
      { mk 0x1234 0x12 0x34 0x56 0xFF [(0xFFFC, 0), (0xFFFD, 0x80), (0x10, 0x55)] with run := .halted }) =
      some ⟨0, 0, 0, 0, 0x8000, false⟩ := by decide

/-! Witnesses: for each statement with hypotheses, a concrete input that meets them. -/

/-- LDA $10 at 0x8000, one cell of data. -/
def ldaState : State := mk 0x8000 0 0 0 0 [(0x8000, 0xA5), (0x8001, 0x10), (0x10, 0x55)]
/-- STA $10 then LDA $10. -/
def staState : State := mk 0x8000 5 0 0 0 [(0x8000, 0x85), (0x8001, 0x10), (0x8002, 0xA5), (0x8003, 0x10)]
/-- A byte outside the table. -/
def badState : State := mk 0x8000 1 0 0 0 [(0x8000, 0x02)]

theorem witness_BrkWithStackEffects :
    stackParams.brkStackEffects = true ∧ stateB2.run = .running ∧
      OpTable.lookup stackParams.optable (stateB2.readByte stateB2.pc) = some ⟨.brk, .noneAddressing, 1, ⟨7, false⟩⟩ := by
  decide

theorem witness_BrkWithStackEffects_sp_zero :
    OpTable.lookup stackParams.optable ({ stateB2 with sp := 0#8 }.readByte stateB2.pc) =
      some ⟨.brk, .noneAddressing, 1, ⟨7, false⟩⟩ := by decide

theorem witness_StepRunsDecoded :
    ldaState.run = .running ∧ (Instr.ldaZeroPage 0x10#8).wf = true ∧
      decode ldaState.fetchBytes = .ok (.ldaZeroPage 0x10#8, [0x00#8]) := ⟨rfl, rfl, rfl⟩

theorem witness_StepRunsDecoded_bytes :
    ∀ k, k < (Instr.ldaZeroPage 0x10#8).length →
      ldaState.readByte (ldaState.pc + BitVec.ofNat 16 k) = (encode (.ldaZeroPage 0x10#8)).getD k 0x00#8 := by
  decide

theorem witness_DecodeOfEncode : (Instr.adcAbsoluteX 0xFFFF#16).wf = true := rfl

theorem witness_DecodedBytes : decode [0x8D#8, 0xFF#8, 0xFF#8, 0x01#8] = .ok (.staAbsolute 0xFFFF#16, [0x01#8]) := rfl

theorem witness_IllegalOpcode : badState.run = .running ∧ step badState = .fault (.illegalOpcode 0x02#8 0x8000#16) :=
  ⟨rfl, rfl⟩

theorem witness_StepFaults_addressing_mode :
    let p := oneRow 0xA5#8 .lda .noneAddressing 1
    ldaState.run = .running ∧ OpTable.lookup p.optable (ldaState.readByte ldaState.pc) =
      some ⟨.lda, .noneAddressing, 1, ⟨2, false⟩⟩ := by decide

/-- LDA ZeroPageY, STA ZeroPageY and ADC ZeroPageY rows, which only a custom table has, with Y wrapping the zero page. -/
theorem witness_CustomTable_zeroPageY :
    let s := { staState with y := 0xFF#8 }
    s.run = .running ∧ Mode.zeroPageY ≠ .noneAddressing ∧
      effectiveAddress .zeroPageY (s.advance 1) = some 0x000F#16 ∧
      OpTable.lookup (oneRow 0x85#8 .lda .zeroPageY 2).optable (s.readByte s.pc) = some ⟨.lda, .zeroPageY, 2, ⟨2, false⟩⟩ ∧
      OpTable.lookup (oneRow 0x85#8 .sta .zeroPageY 2).optable (s.readByte s.pc) = some ⟨.sta, .zeroPageY, 2, ⟨2, false⟩⟩ ∧
      OpTable.lookup (oneRow 0x85#8 .adc .zeroPageY 2).optable (s.readByte s.pc) = some ⟨.adc, .zeroPageY, 2, ⟨2, false⟩⟩ := by
  decide

theorem witness_CustomTable_brk :
    let p := oneRow 0x85#8 .brk .absolute 3
    OpTable.lookup p.optable (staState.readByte staState.pc) = some ⟨.brk, .absolute, 3, ⟨2, false⟩⟩ ∧
      p.brkStackEffects = false ∧ staState.run = .running := by decide

theorem witness_CustomTable_tax_and_inx_length_zero :
    OpTable.lookup (oneRow 0x85#8 .tax .absolute 0).optable (staState.readByte staState.pc) =
        some ⟨.tax, .absolute, 0, ⟨2, false⟩⟩ ∧
      OpTable.lookup (oneRow 0x85#8 .inx .absolute 0).optable (staState.readByte staState.pc) =
        some ⟨.inx, .absolute, 0, ⟨2, false⟩⟩ := by decide

theorem witness_CustomTable_sta_immediate :
    OpTable.lookup (oneRow 0x85#8 .sta .immediate 9).optable (staState.readByte staState.pc) =
      some ⟨.sta, .immediate, 9, ⟨2, false⟩⟩ := by decide

theorem witness_CustomTable_refused : "LDX" ∉ ["LDA", "STA", "TAX", "INX", "ADC", "BRK"] := by decide

theorem witness_StepKeepsCanonical : MemCanonical staState ∧ ∃ t, step staState = .next t ∧ stepWith defaultParams staState = .next t :=
  ⟨rfl, _, rfl, rfl⟩

theorem witness_HostOperations :
    MemCanonical staState ∧ ∃ t, hostStep defaultParams (.load [0x00#8]) staState = .next t := ⟨rfl, _, rfl⟩

theorem witness_CanonicalEqual :
    MemCanonical staState ∧ MemCanonical { staState with a := 9#8 } ∧ MemKept staState { staState with a := 9#8 } :=
  ⟨rfl, rfl, fun _ => rfl⟩

theorem witness_Resolver :
    Mode.indirectY ≠ .noneAddressing ∧ ({ staState with a := 9#8, p := 1#8 }).pc = staState.pc ∧
      MemKept staState { staState with a := 9#8, p := 1#8 } := ⟨by decide, rfl, fun _ => rfl⟩

theorem witness_NoStepWritesY :
    (∃ t, stepWith defaultParams ldaState = .next t) ∧
      ∃ t, loadAndRun defaultParams 2 [0xA9#8, 0x05#8, 0x00#8] State.reset = .halted t := ⟨⟨_, rfl⟩, _, rfl⟩

theorem witness_StatusBits :
    (∃ t, step ldaState = .next t) ∧ ldaState.mnemonicAt ≠ some .adc ∧ (∃ t, step staState = .next t) ∧
      staState.mnemonicAt = some .sta ∧ (∃ t, step State.reset = .next t) ∧ State.reset.mnemonicAt = some .brk :=
  ⟨⟨_, rfl⟩, by decide, ⟨_, rfl⟩, rfl, ⟨_, rfl⟩, rfl⟩

theorem witness_OnlyCarry :
    (0xFE#8 : Byte).getLsbD 0 = ldaState.p.getLsbD 0 ∧ (∃ t, step ldaState = .next t) ∧
      (0xFE#8 : Byte).getLsbD 0 = badState.p.getLsbD 0 ∧ ∃ f, step badState = .fault f :=
  ⟨rfl, ⟨_, rfl⟩, rfl, _, rfl⟩

theorem witness_PcMoves :
    OpTable.lookup defaultTable (ldaState.readByte ldaState.pc) = some ⟨.lda, .zeroPage, 2, ⟨3, false⟩⟩ ∧
      ∃ t, step ldaState = .next t := ⟨rfl, _, rfl⟩

theorem witness_OnlyBrkHalts :
    (∃ t, step State.reset = .next t ∧ t.run = .halted) ∧ ∃ t, step ldaState = .next t ∧ t.run = .running :=
  ⟨⟨_, rfl, rfl⟩, _, rfl, rfl⟩

/-- A Halted core. -/
def haltedState : State := { ldaState with run := .halted }

theorem witness_HaltedCore :
    haltedState.run = .halted ∧ (∃ t, hostStep defaultParams (.writeByte 0#16 1#8) haltedState = .next t) ∧
      (∃ t, hostStep defaultParams .reset haltedState = .next t) ∧
      ∃ t, hostStep defaultParams .create haltedState = .next t := ⟨rfl, ⟨_, rfl⟩, ⟨_, rfl⟩, _, rfl⟩

theorem witness_StoreThenLoad :
    staState.mnemonicAt = some .sta ∧ ∃ t, step staState = .next t ∧ t.mnemonicAt = some .lda ∧ t.targetAt = staState.targetAt :=
  ⟨rfl, _, rfl, rfl, rfl⟩

/-- P4's program, the sum to 0x0200 and 0x0201. -/
def chainState : State :=
  mk 0x8000 0 0 0 0
    [(0x8000, 0xA9), (0x8001, 0xFF), (0x8002, 0x69), (0x8003, 0x01), (0x8004, 0x8D), (0x8006, 0x02), (0x8007, 0xA9),
     (0x8008, 0x01), (0x8009, 0x69), (0x800B, 0x8D), (0x800C, 0x01), (0x800D, 0x02)]

theorem witness_AdcChain :
    ∃ s1 s2 s3 s4 s5 s6,
      (chainState.mnemonicAt = some .lda ∧ chainState.targetAt = some 0x8001#16 ∧ step chainState = .next s1) ∧
      (s1.mnemonicAt = some .adc ∧ s1.targetAt = some 0x8003#16 ∧ step s1 = .next s2) ∧
      (s2.mnemonicAt = some .sta ∧ s2.targetAt = some 0x0200#16 ∧ step s2 = .next s3) ∧
      (s3.mnemonicAt = some .lda ∧ s3.targetAt = some 0x8008#16 ∧ step s3 = .next s4) ∧
      (s4.mnemonicAt = some .adc ∧ s4.targetAt = some 0x800A#16 ∧ step s4 = .next s5) ∧
      (s5.mnemonicAt = some .sta ∧ s5.targetAt = some 0x0201#16 ∧ step s5 = .next s6) ∧
      chainState.p.getLsbD 0 = false ∧ (0x0200#16 : Word) ≠ 0x0201#16 :=
  ⟨_, _, _, _, _, _, ⟨rfl, rfl, rfl⟩, ⟨rfl, rfl, rfl⟩, ⟨rfl, rfl, rfl⟩, ⟨rfl, rfl, rfl⟩, ⟨rfl, rfl, rfl⟩,
    ⟨rfl, rfl, rfl⟩, rfl, by decide⟩

/-- Images at the lengths where the clauses of the load statements meet. -/
theorem witness_Load_boundaries :
    (List.replicate 0x7FFC (1#8 : Byte)).length ≤ 0x7FFC ∧ (List.replicate 0x7FFD (1#8 : Byte)).length ≤ 0x7FFD ∧
      (List.replicate 0x8000 (1#8 : Byte)).length ≤ 0x8000 ∧ (List.replicate 0x8001 (1#8 : Byte)).length > 0x8000 := by
  simp only [List.length_replicate]; decide

theorem witness_RunIsItsSteps :
    (∃ t, stepWith defaultParams ldaState = .next t) ∧ ∃ f, stepWith defaultParams badState = .fault f :=
  ⟨⟨_, rfl⟩, _, rfl⟩

/-- A running core with 0xE8 in the first `n` cells. -/
def inxState (n : Nat) : State := { State.reset with mem := (List.range n).map (fun k => (k, 0xE8#8)) }

theorem inxMemory_read (l : List Nat) (k : Nat) (h : k ∈ l) :
    Memory.read (l.map (fun j => (j, (0xE8#8 : Byte)))) k = 0xE8#8 := by
  induction l with
  | nil => simp at h
  | cons j l ih =>
    by_cases hj : j = k
    · simp [Memory.read, hj]
    · have : k ∈ l := by simpa [Ne.symm hj] using h
      simp [Memory.read, hj, ih this]

theorem inxState_read (n : Nat) (addr : Word) (h : addr.toNat < n) : (inxState n).readByte addr = 0xE8#8 :=
  inxMemory_read _ _ (List.mem_range.2 h)

theorem inxState_run (n : Nat) : (inxState n).run = .running := rfl

theorem witness_MemoryFullOfInx :
    (inxState 65536).run = .running ∧ ∀ addr : Word, (inxState 65536).readByte addr = 0xE8#8 :=
  ⟨inxState_run _, fun addr => inxState_read _ addr addr.isLt⟩

theorem witness_OnlySta :
    (∃ t, step ldaState = .next t) ∧ ldaState.mnemonicAt ≠ some .sta ∧ (∃ t, step staState = .next t) ∧
      staState.mnemonicAt = some .sta ∧ staState.targetAt = some 0x0010#16 :=
  ⟨⟨_, rfl⟩, by decide, ⟨_, rfl⟩, rfl, rfl⟩

theorem witness_BaseIgnoresStackPointer : (∃ t, step ldaState = .next t) ∧ ∃ f, step badState = .fault f :=
  ⟨⟨_, rfl⟩, _, rfl⟩

/-- STA $8003 with A holding an opcode: the next instruction's first byte. -/
def selfState (a : Nat) : State := mk 0x8000 a 0 0 0 [(0x8000, 0x8D), (0x8001, 0x03), (0x8002, 0x80)]

theorem witness_StoreIsSeen :
    (selfState 0xE8).mnemonicAt = some .sta ∧
      (∃ t, step (selfState 0xE8) = .next t ∧ (selfState 0xE8).targetAt = some t.pc ∧
        decodeOp (selfState 0xE8).a (t.readByte (t.pc + 1#16)) (t.readByte (t.pc + 2#16)) = .ok .inx) ∧
      OpTable.lookup defaultTable (selfState 0x02).a = none :=
  ⟨rfl, ⟨_, rfl, rfl, rfl⟩, rfl⟩

theorem witness_ResetLoadAndCreation_stack_parameter : stackParams.brkStackEffects = true := rfl

end Sys2Proof.Tests
end

section
/-! PROOFS. What the fixed step and the table-driven step share: the decoder and the default table select the same row, and a
step is described by the `RowEffect` of its row, in both directions. -/

namespace Sys2Proof.Machine

/-- The resolver depends on `pc`, X, Y and memory only (40_addressing_modes.md R91). -/
theorem effectiveAddress_congr (m : Mode) {s t : State} (hpc : t.pc = s.pc) (hx : t.x = s.x) (hy : t.y = s.y)
    (hmem : MemKept s t) : effectiveAddress m t = effectiveAddress m s := by
  have hread : ∀ w, t.readByte w = s.readByte w := hmem
  cases m <;>
    simp only [effectiveAddress, State.readWord, indirectXAddr, indirectYAddr, zeroPagePointer, hpc, hx, hy, hread]

/-- The converse of `dispatchRow_ok`: the effect of a row determines what its dispatch answers. -/
theorem RowEffect.dispatchRow_eq {p : Params} {e : OpRecord} {s t : State} (h : RowEffect p e s t) (op : Byte) :
    dispatchRow p e op s.pc (s.advance 1) = .ok t := by
  cases h with
  | lda ea hm hea => simp only [dispatchRow, hm, withOperand, hea, skip_load]
  | sta ea hm hea => simp only [dispatchRow, hm, withOperand, hea, skip_store]
  | adc ea hm hea => simp only [dispatchRow, hm, withOperand, hea, skip_add]
  | tax hm => simp only [dispatchRow, hm, skip_tax]
  | inx hm => simp only [dispatchRow, hm, skip_inx]
  | brk hm => simp only [dispatchRow, hm]; rfl

/-- The next states of the step are exactly the effects of the row at `pc`. -/
theorem stepWith_eq_next_iff {p : Params} {s t : State} :
    stepWith p s = .next t ↔
      s.run = .running ∧ ∃ e, OpTable.lookup p.optable (s.readByte s.pc) = some e ∧ RowEffect p e s t := by
  refine ⟨stepWith_next, fun ⟨hr, e, hl, he⟩ => ?_⟩
  rw [stepWith_of_lookup hr hl, he.dispatchRow_eq]; rfl

/-- Every row of the default table has its form in the decoder, and the meaning of the instruction decoded from the bytes at
`pc` is the effect of the row. -/
theorem exists_decodeOp_rowEffect {op : Byte} {e : OpRecord} (s : State) (h : OpTable.lookup defaultTable op = some e) :
    ∃ i t, decodeOp op (s.readByte (s.pc + 1#16)) (s.readByte (s.pc + 1#16 + 1#16)) = .ok i ∧
      RowEffect defaultParams e s t ∧ exec i s = .next t := by
  rcases opcode_cases op with ⟨hnone, -⟩ | hmem
  · simp [hnone] at h
  · simp only [List.mem_cons, List.not_mem_nil, or_false] at hmem
    rcases hmem with rfl | rfl | rfl | rfl | rfl | rfl | rfl | rfl | rfl | rfl | rfl | rfl | rfl | rfl | rfl | rfl |
      rfl | rfl | rfl | rfl | rfl | rfl | rfl | rfl | rfl | rfl
    all_goals obtain rfl : _ = e := Option.some.inj h
    · exact ⟨_, _, rfl, .brk rfl, rfl⟩
    · exact ⟨_, _, rfl, .tax rfl, rfl⟩
    · exact ⟨_, _, rfl, .inx rfl, rfl⟩
    iterate 8 exact ⟨_, _, rfl, .adc _ rfl rfl, rfl⟩
    iterate 7 exact ⟨_, _, rfl, .sta _ rfl rfl, rfl⟩
    iterate 8 exact ⟨_, _, rfl, .lda _ rfl rfl, rfl⟩

/-- The fixed step where the byte at `pc` has a row. -/
theorem step_of_lookup {s : State} {e : OpRecord} (hr : s.run = .running)
    (hl : OpTable.lookup defaultTable (s.readByte s.pc) = some e) :
    ∃ t, step s = .next t ∧ RowEffect defaultParams e s t := by
  obtain ⟨i, t, hdec, he, hexec⟩ := exists_decodeOp_rowEffect s hl
  have hfetch : s.fetchInstr = .ok i := by rw [State.fetchInstr, ← hdec, BitVec.add_assoc]; rfl
  exact ⟨t, by simp only [step, hr, hfetch, hexec], he⟩

/-- A byte without a row has no form in the decoder. -/
theorem findForm_isNone_of_lookup :
    ∀ op, OpTable.lookup defaultTable op = none → (findForm allForms op).isNone = true := by
  decide +revert

/-- The fixed step where the byte at `pc` has no row (60_exceptions.md R181). -/
theorem step_of_lookup_none {s : State} (hr : s.run = .running)
    (hl : OpTable.lookup defaultTable (s.readByte s.pc) = none) :
    step s = .fault (.illegalOpcode (s.readByte s.pc) s.pc) := by
  have hform := findForm_isNone_of_lookup _ hl
  simp only [step, hr, State.fetchInstr, decodeOp_of_isNone hform, State.fetchFault, raiseIllegal]

/-- The step of the decoder is the table-driven step with the default parameters (46_execution_loop.md R164). -/
theorem step_eq_stepWith (s : State) : step s = stepWith defaultParams s := by
  cases hr : s.run with
  | halted => simp only [step, stepWith, hr]
  | running =>
    cases hl : OpTable.lookup defaultTable (s.readByte s.pc) with
    | none =>
      have hl' : OpTable.lookup defaultParams.optable (s.readByte s.pc) = none := hl
      rw [step_of_lookup_none hr hl]
      simp only [stepWith, hr, stepRunning, hl', outcomeOf]
    | some e =>
      obtain ⟨t, ht, he⟩ := step_of_lookup hr hl
      rw [ht, stepWith_eq_next_iff.2 ⟨hr, e, hl, he⟩]

/-- The next states of the fixed step. -/
theorem step_eq_next_iff {s t : State} :
    step s = .next t ↔
      s.run = .running ∧ ∃ e, OpTable.lookup defaultTable (s.readByte s.pc) = some e ∧ RowEffect defaultParams e s t := by
  rw [step_eq_stepWith]; exact stepWith_eq_next_iff

/-- The faults of the fixed step (60_exceptions.md R181). -/
theorem step_eq_fault_iff {s : State} {f : Fault} :
    step s = .fault f ↔
      s.run = .running ∧ OpTable.lookup defaultTable (s.readByte s.pc) = none ∧
        f = .illegalOpcode (s.readByte s.pc) s.pc := by
  cases hr : s.run with
  | halted => simp [step, hr, noStep]
  | running =>
    cases hl : OpTable.lookup defaultTable (s.readByte s.pc) with
    | none => simp [step_of_lookup_none hr hl, eq_comm]
    | some e =>
      obtain ⟨t, ht, -⟩ := step_of_lookup hr hl
      simp [ht]

end Sys2Proof.Machine
end

section
/-! PROOFS. What the effect of a row keeps: the canonical form of memory, Y, the run state, the status bits, the stack pointer;
and what it does not depend on: status bits 1 to 7 and, without stack effects, the stack pointer. -/

namespace Sys2Proof.Machine

/-! Memory -/

theorem State.wf_brkWith {s : State} (b : Bool) (h : Memory.wf s.mem = true) :
    Memory.wf (s.brkWith b).mem = true := by
  cases b with
  | false => exact h
  | true => exact State.wf_pushByte _ (State.wf_pushByte _ (State.wf_pushByte _ h))

/-- Only STA and the pushes of BRK write memory, both through `writeByte`. -/
theorem RowEffect.memCanonical {p : Params} {e : OpRecord} {s t : State} (h : RowEffect p e s t)
    (hs : MemCanonical s) : MemCanonical t := by
  cases h with
  | lda | adc | tax | inx => exact hs
  | sta ea => exact State.wf_writeByte ea s.a hs
  | brk => exact State.wf_brkWith _ hs

/-- An address below every listed one reads as an unlisted address. -/
theorem Memory.read_of_lt_keys {m : Memory} {k : Nat} (h : ∀ d ∈ m, k < d.1) : Memory.read m k = unlistedByte := by
  induction m with
  | nil => rfl
  | cons c m ih =>
    have hc : c.1 ≠ k := (h c (by simp)).ne'
    rw [Memory.read, if_neg hc]
    exact ih fun d hd => h d (by simp [hd])

theorem Memory.read_cons_self (c : Host.Cell) (m : Memory) : Memory.read (c :: m) c.1 = c.2 := by
  simp [Memory.read]

theorem Memory.read_cons_of_ne {c : Host.Cell} (m : Memory) {k : Nat} (h : c.1 ≠ k) :
    Memory.read (c :: m) k = Memory.read m k := by
  simp [Memory.read, h]

/-- The first listed address is the first that does not read 0x00, so it cannot stand below all addresses of a memory that
reads alike. -/
theorem Memory.head_not_lt_keys {c : Host.Cell} {m m' : Memory} (h : Memory.wf (c :: m) = true)
    (hread : ∀ k < 65536, Memory.read (c :: m) k = Memory.read m' k) : ¬ ∀ d ∈ m', c.1 < d.1 := by
  obtain ⟨hlt, hne, -, -⟩ := Memory.wf_cons.1 h
  intro hall
  exact hne (by rw [← Memory.read_cons_self c m, hread c.1 hlt, Memory.read_of_lt_keys hall])

/-- One list for one memory: the canonical form is determined by what the addresses read. -/
theorem Memory.eq_of_wf_of_read_eq {m m' : Memory} (h : Memory.wf m = true) (h' : Memory.wf m' = true)
    (hread : ∀ k < 65536, Memory.read m k = Memory.read m' k) : m = m' := by
  induction m generalizing m' with
  | nil =>
    cases m' with
    | nil => rfl
    | cons d m' => exact absurd (by simp) (Memory.head_not_lt_keys h' fun k hk => (hread k hk).symm)
  | cons c m ih =>
    cases m' with
    | nil => exact absurd (by simp) (Memory.head_not_lt_keys h hread)
    | cons d m' =>
      obtain ⟨hc, -, hkeys, hm⟩ := Memory.wf_cons.1 h
      obtain ⟨-, -, hkeys', hm'⟩ := Memory.wf_cons.1 h'
      have hcd : ¬ c.1 < d.1 := fun hlt =>
        Memory.head_not_lt_keys h hread (List.forall_mem_cons.2 ⟨hlt, fun x hx => hlt.trans (hkeys' x hx)⟩)
      have hdc : ¬ d.1 < c.1 := fun hlt =>
        Memory.head_not_lt_keys h' (fun k hk => (hread k hk).symm)
          (List.forall_mem_cons.2 ⟨hlt, fun x hx => hlt.trans (hkeys x hx)⟩)
      have hkey : c.1 = d.1 := by omega
      have hbyte : c.2 = d.2 := by
        rw [← Memory.read_cons_self c m, hread c.1 hc, hkey, Memory.read_cons_self]
      have htail : m = m' := by
        refine ih hm hm' fun k hk => ?_
        by_cases hck : c.1 = k
        · rw [Memory.read_of_lt_keys fun x hx => hck ▸ hkeys x hx,
            Memory.read_of_lt_keys fun x hx => hck ▸ hkey ▸ hkeys' x hx]
        · rw [← Memory.read_cons_of_ne m hck, hread k hk, Memory.read_cons_of_ne m' (hkey ▸ hck)]
      rw [htail, Prod.ext hkey hbyte]

/-! Y and the run state -/

theorem State.brkWith_y (s : State) (b : Bool) : (s.brkWith b).y = s.y := by
  cases b with
  | false => rfl
  | true => obtain ⟨-, -, hy, -⟩ := s.brkStack_regs; exact hy

theorem State.brkWith_run (s : State) (b : Bool) : (s.brkWith b).run = .halted := by
  cases b <;> rfl

theorem RowEffect.y_eq {p : Params} {e : OpRecord} {s t : State} (h : RowEffect p e s t) : t.y = s.y := by
  cases h with
  | lda | sta | adc | tax | inx => rfl
  | brk => exact s.brkWith_y _

theorem RowEffect.run_eq_halted_iff {p : Params} {e : OpRecord} {s t : State} (h : RowEffect p e s t)
    (hr : s.run = .running) : t.run = .halted ↔ e.mnemonic = .brk := by
  cases h with
  | lda ea hm | sta ea hm | adc ea hm | tax hm | inx hm =>
    have hrun : s.run ≠ .halted := by simp [hr]
    exact iff_of_false hrun (by simp [hm])
  | brk hm => simp [hm, State.brkWith_run]

/-- 0x00 is the one opcode byte of BRK (30_encoding.md R64). -/
theorem lookup_mnemonic_eq_brk_iff :
    ∀ op, (OpTable.lookup defaultTable op).map OpRecord.mnemonic = some .brk ↔ op = 0x00#8 := by
  decide +revert

/-- A successful body of the loop is a step. -/
theorem stepWith_of_stepRunning {p : Params} {s t : State} (hr : s.run = .running) (h : stepRunning p s = .ok t) :
    stepWith p s = .next t := by
  simp only [stepWith, hr, h, outcomeOf]

theorem stepWith_y {p : Params} {s t : State} (h : stepWith p s = .next t) : t.y = s.y := by
  obtain ⟨-, e, -, he⟩ := stepWith_next h
  exact he.y_eq

/-- What every step keeps holds of the state a run ends Halted in. -/
theorem runFor_halted_of_step {p : Params} {Inv : State → Prop}
    (hstep : ∀ s t, stepWith p s = .next t → Inv s → Inv t) {fuel : Nat} {s t : State}
    (h : runFor p fuel s = .halted t) (hs : Inv s) : Inv t := by
  induction fuel generalizing s with
  | zero =>
    cases hr : s.run with
    | halted => rw [runFor_of_halted hr] at h; cases h; exact hs
    | running => simp [runFor, hr] at h
  | succ n ih =>
    cases hr : s.run with
    | halted => rw [runFor_of_halted hr] at h; cases h; exact hs
    | running =>
      rw [runFor_succ_of_running hr] at h
      cases hnext : stepRunning p s with
      | error f => simp [hnext] at h
      | ok u =>
        rw [hnext] at h
        exact ih h (hstep s u (stepWith_of_stepRunning hr hnext) hs)

theorem loadAndRun_halted_y {p : Params} {fuel : Nat} {program : List Byte} {s t : State}
    (h : loadAndRun p fuel program s = .halted t) : t.y = 0x00#8 := by
  cases hload : load program s with
  | error f => simp [loadAndRun, hload] at h
  | ok u =>
    have hrun : runFor p fuel (resetWith p u) = .halted t := by simpa only [loadAndRun, hload] using h
    exact runFor_halted_of_step (Inv := fun u => u.y = 0x00#8) (fun _ _ hnext hy => (stepWith_y hnext).trans hy) hrun rfl

/-! The status byte -/

theorem getLsbD_setZN_of_ne (p v : Byte) {n : Nat} (h1 : n ≠ 1) (h7 : n ≠ 7) :
    (setZN p v).getLsbD n = p.getLsbD n := by
  obtain ⟨-, -, hkeep⟩ := znFrom_setZN p v
  exact hkeep n h1 h7

theorem getLsbD_adcStatus_zero (p : Byte) (r : AddResult) : (adcStatus p r).getLsbD 0 = r.carryOut :=
  getLsbD_adcStatus p r 0

theorem getLsbD_adcStatus_of_two_le (p : Byte) (r : AddResult) {n : Nat} (h2 : 2 ≤ n) (h5 : n ≤ 5) :
    (adcStatus p r).getLsbD n = p.getLsbD n := by
  rw [getLsbD_adcStatus, if_neg (by omega), if_neg (by omega), if_neg (by omega), if_neg (by omega)]

section
variable {p : Params} {e : OpRecord} {s t : State}

/-- BRK without stack effects, and STA, write no status bit. -/
theorem RowEffect.p_eq (hb : p.brkStackEffects = false) (h : RowEffect p e s t)
    (hm : e.mnemonic = .sta ∨ e.mnemonic = .brk) : t.p = s.p := by
  cases h with
  | lda ea hm' | adc ea hm' | tax hm' | inx hm' => simp [hm'] at hm
  | sta => rfl
  | brk => rw [hb]; rfl

/-- Without stack effects only ADC writes more of the status than Zero and Negative. -/
theorem RowEffect.getLsbD_p_of_ne_adc (hb : p.brkStackEffects = false) (h : RowEffect p e s t)
    (hm : e.mnemonic ≠ .adc) {n : Nat} (h1 : n ≠ 1) (h7 : n ≠ 7) : t.p.getLsbD n = s.p.getLsbD n := by
  cases h with
  | lda | tax | inx => exact getLsbD_setZN_of_ne _ _ h1 h7
  | sta => rfl
  | adc ea hm' => exact absurd hm' hm
  | brk => rw [hb]; rfl

/-- Without stack effects no row writes Interrupt-disable, Decimal, Break or bit 5. -/
theorem RowEffect.getLsbD_p_of_two_le (hb : p.brkStackEffects = false) (h : RowEffect p e s t)
    {n : Nat} (h2 : 2 ≤ n) (h5 : n ≤ 5) : t.p.getLsbD n = s.p.getLsbD n := by
  by_cases hm : e.mnemonic = .adc
  · cases h with
    | adc => exact getLsbD_adcStatus_of_two_le _ _ h2 h5
    | lda ea hm' | sta ea hm' | tax hm' | inx hm' | brk hm' => simp [hm'] at hm
  · exact h.getLsbD_p_of_ne_adc hb hm (by omega) (by omega)

/-- ADC reads Carry and no other status bit. -/
theorem State.addFrom_setP (s : State) (ea : Word) {q : Byte} (hq : q.getLsbD 0 = s.p.getLsbD 0) :
    (s.setP q).addFrom ea =
      (s.addFrom ea).setP (adcStatus q (addC s.a (s.readByte ea) (getFlag s.p .carry))) := by
  have hc : getFlag q .carry = getFlag s.p .carry := hq
  simp only [State.addFrom, State.addToA, State.setP_readByte, State.setP_a, State.setP_p, hc]
  rfl

/-- Without stack effects a row acts alike on two states that agree but for status bits 1 to 7. -/
theorem RowEffect.exists_setP (hb : p.brkStackEffects = false) (h : RowEffect p e s t) {q : Byte}
    (hq : q.getLsbD 0 = s.p.getLsbD 0) :
    ∃ r, RowEffect p e (s.setP q) (t.setP r) ∧ r.getLsbD 0 = t.p.getLsbD 0 := by
  have hresolve : effectiveAddress e.mode ((s.setP q).advance 1) = effectiveAddress e.mode (s.advance 1) :=
    effectiveAddress_congr _ rfl rfl rfl fun _ => rfl
  have hzn : ∀ v, (setZN q v).getLsbD 0 = (setZN s.p v).getLsbD 0 := fun v => by
    rw [getLsbD_setZN_of_ne _ _ (by decide) (by decide), getLsbD_setZN_of_ne _ _ (by decide) (by decide), hq]
  cases h with
  | lda ea hm hea => exact ⟨_, .lda ea hm (hresolve.trans hea), hzn _⟩
  | sta ea hm hea => exact ⟨q, .sta ea hm (hresolve.trans hea), hq⟩
  | adc ea hm hea =>
    have hadd := RowEffect.adc (p := p) (s := s.setP q) ea hm (hresolve.trans hea)
    rw [State.addFrom_setP s ea hq] at hadd
    exact ⟨_, hadd, (getLsbD_adcStatus_zero q _).trans (getLsbD_adcStatus_zero s.p _).symm⟩
  | tax hm => exact ⟨_, .tax hm, hzn _⟩
  | inx hm => exact ⟨_, .inx hm, hzn _⟩
  | brk hm =>
    have hbrk := RowEffect.brk (p := p) (s := s.setP q) hm
    rw [hb] at hbrk ⊢
    exact ⟨q, hbrk, hq⟩

/-! The stack pointer -/

/-- Without stack effects no row writes the stack pointer. -/
theorem RowEffect.sp_eq (hb : p.brkStackEffects = false) (h : RowEffect p e s t) : t.sp = s.sp := by
  cases h with
  | lda | sta | adc | tax | inx => rfl
  | brk => rw [hb]; rfl

/-- Without stack effects no row reads the stack pointer. -/
theorem RowEffect.setSp (hb : p.brkStackEffects = false) (h : RowEffect p e s t) (v : Byte) :
    RowEffect p e (s.setSp v) (t.setSp v) := by
  have hresolve : effectiveAddress e.mode ((s.setSp v).advance 1) = effectiveAddress e.mode (s.advance 1) :=
    effectiveAddress_congr _ rfl rfl rfl fun _ => rfl
  cases h with
  | lda ea hm hea => exact .lda ea hm (hresolve.trans hea)
  | sta ea hm hea => exact .sta ea hm (hresolve.trans hea)
  | adc ea hm hea => exact .adc ea hm (hresolve.trans hea)
  | tax hm => exact .tax hm
  | inx hm => exact .inx hm
  | brk hm =>
    have hbrk := RowEffect.brk (p := p) (s := s.setSp v) hm
    rw [hb] at hbrk ⊢
    exact hbrk

end

end Sys2Proof.Machine
end

section
/-! PROOFS. The statements about the state (10_state.md). -/

namespace Sys2Proof.Machine

theorem stepWith_memCanonical {p : Params} {s t : State} (hs : MemCanonical s) (h : stepWith p s = .next t) :
    MemCanonical t := by
  obtain ⟨-, e, -, he⟩ := stepWith_next h
  exact he.memCanonical hs

/-- Settles O24: the invariant holds of the effect of every row, and the fixed step is the step with the default parameters. -/
theorem stepKeepsMemoryCanonical : Obligations.StepKeepsMemoryCanonical :=
  ⟨fun s _ hs h => stepWith_memCanonical hs (step_eq_stepWith s ▸ h), fun _ _ _ => stepWith_memCanonical⟩

/-- Settles O35: the effect of the row at `pc` is carried over to the other status byte, and the condition of a fault
names the run state, memory and `pc` only. -/
theorem onlyCarryOfTheStatusActs : Obligations.OnlyCarryOfTheStatusActs := by
  intro s q hq
  refine ⟨fun f => step_eq_fault_iff.trans (step_eq_fault_iff (s := s.setP q)).symm, fun t h => ?_⟩
  obtain ⟨hr, e, hl, he⟩ := step_eq_next_iff.1 h
  obtain ⟨r, hsim, hcarry⟩ := he.exists_setP rfl hq
  exact ⟨r, step_eq_next_iff.2 ⟨hr, e, hl, hsim⟩, hcarry, fun n h2 h5 => hsim.getLsbD_p_of_two_le rfl h2 h5⟩

/-- Settles O27: the 65536 words are all the addresses a canonical list can hold. -/
theorem canonicalMemoriesReadingAlikeAreEqual : Obligations.CanonicalMemoriesReadingAlikeAreEqual := by
  intro s t hs ht hread
  refine Memory.eq_of_wf_of_read_eq hs ht fun k hk => ?_
  have hword := hread (BitVec.ofNat 16 k)
  rw [State.readByte, State.readByte, BitVec.toNat_ofNat, Nat.mod_eq_of_lt hk] at hword
  exact hword.symm

/-- Settles O33: no row writes Y, and `load_and_run` starts from the zero Y of `reset`. -/
theorem noStepWritesY : Obligations.NoStepWritesY :=
  ⟨fun _ _ _ => stepWith_y, fun _ _ _ _ _ => loadAndRun_halted_y⟩

/-- Settles O34: each clause is a property of the row at `pc`, which `mnemonicAt` names. -/
theorem statusBitsChangeOnlyUnderTheirInstructions : Obligations.StatusBitsChangeOnlyUnderTheirInstructions := by
  intro s t h
  obtain ⟨-, e, hl, he⟩ := step_eq_next_iff.1 h
  simp only [State.mnemonicAt_of_lookup hl, ne_eq, Option.some.injEq]
  exact ⟨fun n h2 h5 => he.getLsbD_p_of_two_le rfl h2 h5,
    fun hm => ⟨he.getLsbD_p_of_ne_adc rfl hm (by decide) (by decide),
      he.getLsbD_p_of_ne_adc rfl hm (by decide) (by decide)⟩,
    he.p_eq rfl⟩

/-- Settles O37: BRK alone halts, and 0x00 is its one opcode byte. -/
theorem onlyBrkHaltsTheCore : Obligations.OnlyBrkHaltsTheCore := by
  intro s t h
  obtain ⟨hr, e, hl, he⟩ := step_eq_next_iff.1 h
  rw [he.run_eq_halted_iff hr, ← lookup_mnemonic_eq_brk_iff, hl, Option.map_some, Option.some.injEq]

/-- Settles O46: the default parameters have no stack effects, and without them no row writes or reads the field. -/
theorem baseStepIgnoresTheStackPointer : Obligations.BaseStepIgnoresTheStackPointer := by
  intro s v
  refine ⟨fun t h => ?_, fun f h => (step_eq_fault_iff (s := s.setSp v)).2 ((step_eq_fault_iff (s := s)).1 h)⟩
  obtain ⟨hr, e, hl, he⟩ := step_eq_next_iff.1 h
  exact ⟨he.sp_eq rfl, step_eq_next_iff.2 ⟨hr, e, hl, he.setSp rfl v⟩⟩

/-- Settles O25: the empty list is canonical. -/
theorem resetStateMemoryIsCanonical : Obligations.ResetStateMemoryIsCanonical := rfl

/-- Settles O50: the vector of zero-filled memory reads 0x0000. -/
theorem resetStateIsResetOfTheCreatedMachine : Obligations.ResetStateIsResetOfTheCreatedMachine := rfl

end Sys2Proof.Machine
end

section
/-! PROOFS. What a 16-bit write does to the bytes of memory, and what the row at `pc` does to them. -/

namespace Sys2Proof.Machine

/-! The 16-bit write (20_memory.md R43) -/

/-- The two cells of a 16-bit value are different, at the top of memory too. -/
theorem word_ne_add_one (w : Word) : w ≠ w + 1#16 := by
  bv_omega

@[simp] theorem State.readByte_writeWord_low (s : State) (addr v : Word) :
    (s.writeWord addr v).readByte addr = lowByte v := by
  rw [State.writeWord, State.readByte_writeByte_other _ _ (word_ne_add_one addr), State.readByte_writeByte_same]

@[simp] theorem State.readByte_writeWord_high (s : State) (addr v : Word) :
    (s.writeWord addr v).readByte (addr + 1#16) = highByte v :=
  State.readByte_writeByte_same _ _ _

theorem State.readByte_writeWord_other (s : State) {addr w : Word} (v : Word) (hlow : w ≠ addr)
    (hhigh : w ≠ addr + 1#16) : (s.writeWord addr v).readByte w = s.readByte w := by
  rw [State.writeWord, State.readByte_writeByte_other _ _ hhigh, State.readByte_writeByte_other _ _ hlow]

@[simp] theorem State.readWord_writeWord (s : State) (addr v : Word) : (s.writeWord addr v).readWord addr = v := by
  rw [State.readWord, State.readByte_writeWord_high, State.readByte_writeWord_low, mkWord_bytes]

/-- The cell after `addr`, by its number. -/
theorem State.byteAt_succ (s : State) (addr : Word) : s.byteAt ((addr.toNat + 1) % 65536) = s.readByte (addr + 1#16) :=
  State.byteAt_of_toNat s (addr + 1#16) (by simp)

/-! The row at `pc` -/

section
variable {p : Params} {e : OpRecord} {s t : State} {ea : Word}

/-- Without stack effects only STA writes memory. -/
theorem RowEffect.memKept (hb : p.brkStackEffects = false) (h : RowEffect p e s t) (hm : e.mnemonic ≠ .sta) :
    MemKept s t := by
  cases h with
  | lda | adc | tax | inx => exact fun _ => rfl
  | sta ea hm' => exact absurd hm' hm
  | brk => rw [hb]; exact fun _ => rfl

/-- A row of STA stores at the address the resolver gives (42_load_store.md R119). -/
theorem RowEffect.storesA (h : RowEffect p e s t) (hm : e.mnemonic = .sta)
    (hea : effectiveAddress e.mode (s.advance 1) = some ea) : StoresA ea e.length s t := by
  cases h with
  | sta ea' hm' hea' =>
    obtain rfl : ea' = ea := Option.some.inj (hea'.symm.trans hea)
    exact State.storeTo_effect s ea' e.length
  | lda ea' hm' | adc ea' hm' | tax hm' | inx hm' | brk hm' => simp [hm'] at hm

/-- The step of the base hardware at an STA, in the names of the statements. -/
theorem step_storesA (hm : s.mnemonicAt = some .sta) (h : step s = .next t) (hea : s.targetAt = some ea) :
    s.run = .running ∧ ∃ n, StoresA ea n s t := by
  obtain ⟨hr, e, hl, he⟩ := step_eq_next_iff.1 h
  rw [State.mnemonicAt_of_lookup hl, Option.some.injEq] at hm
  rw [State.targetAt_of_lookup hl] at hea
  exact ⟨hr, e.length, he.storesA hm hea⟩

/-- A running core executes the instruction it fetches (46_execution_loop.md R160). -/
theorem step_of_fetchInstr {i : Instr} (hr : s.run = .running) (hf : s.fetchInstr = .ok i) : step s = exec i s := by
  simp only [step, hr, hf]

end

end Sys2Proof.Machine
end

section
/-! PROOFS. The statements about memory (20_memory.md). -/

namespace Sys2Proof.Machine

/-- Settles O28: the two cells of a 16-bit write are different, so the high byte does not overwrite the low one. -/
theorem memoryWritesReadBackAndLeaveTheRest : Obligations.MemoryWritesReadBackAndLeaveTheRest := by
  intro s addr
  refine ⟨fun v => ⟨s.readByte_writeByte_same addr v, fun _ hw => s.readByte_writeByte_other v hw, rfl⟩,
    s.toNat_readWord addr, fun v => ⟨s.readWord_writeWord addr v, ?_, ?_, fun w hlow hhigh => ?_⟩⟩
  · rw [State.readByte_writeWord_low, toNat_lowByte]
  · rw [State.byteAt_succ, State.readByte_writeWord_high, toNat_highByte]
  · have hnext : w ≠ addr + 1#16 := fun hw => hhigh (by simp [hw])
    exact s.readByte_writeWord_other v hlow hnext

/-- Settles O45: a property of the row at `pc`, which `mnemonicAt` and `targetAt` name. -/
theorem onlyStaChangesMemoryAndOnlyAtItsAddress : Obligations.OnlyStaChangesMemoryAndOnlyAtItsAddress := by
  intro s t h
  refine ⟨fun hm => ?_, fun ea hm hea => ?_⟩
  · obtain ⟨-, e, hl, he⟩ := step_eq_next_iff.1 h
    rw [State.mnemonicAt_of_lookup hl, ne_eq, Option.some.injEq] at hm
    exact he.memKept rfl hm
  · obtain ⟨-, n, hread, hkept, -⟩ := step_storesA hm h hea
    exact ⟨hread, hkept⟩

/-- Settles O47: after the store the core is still running and its opcode byte reads A. -/
theorem storeIsSeenByTheNextFetch : Obligations.StoreIsSeenByTheNextFetch := by
  intro s t hm h hea
  obtain ⟨hrs, n, hread, -, -, -, -, -, -, hrun, -⟩ := step_storesA hm h hea
  have hr : t.run = .running := hrun.trans hrs
  rw [← hread]
  exact ⟨fun i hi => step_of_fetchInstr hr hi, step_of_lookup_none hr⟩

end Sys2Proof.Machine
end

section
/-! PROOFS. The decoder and the encoder are inverse (30_encoding.md R60, R62, R64), said once for an opcode byte with the two
bytes after it and once for a list of bytes. -/

namespace Sys2Proof

theorem length_encode (i : Instr) : (encode i).length = i.length := by
  cases i <;> rfl

theorem Instr.length_pos (i : Instr) : 0 < i.length := by
  cases i <;> simp [Instr.length]

theorem Instr.length_le_three (i : Instr) : i.length ≤ 3 := by
  cases i <;> simp [Instr.length]

end Sys2Proof

namespace Sys2Proof.Machine

/-! The rows of R64, as the encoder and as the decoder have them -/

theorem exists_mkWord (w : Word) : ∃ hi lo, w = mkWord hi lo :=
  ⟨highByte w, lowByte w, (mkWord_bytes w).symm⟩

/-- The operand bytes of an `F3` instruction, low byte first (R62). -/
theorem encodeF3_mkWord (op hi lo : Byte) : encodeF3 op (mkWord hi lo) = [op, lo, hi] := by
  rw [mkWord, encodeF3, lowByte_append, highByte_append]

/-- What a byte selects is one of the rows, and the byte is its opcode. -/
theorem mem_of_findForm {rows : List (Byte × InstrForm)} {op : Byte} {form : InstrForm}
    (h : findForm rows op = some form) : (op, form) ∈ rows := by
  induction rows with
  | nil => simp [findForm] at h
  | cons r rows ih =>
    by_cases hr : r.1 = op
    · obtain rfl : r.2 = form := by simpa [findForm, hr] using h
      simp [← hr]
    · exact List.mem_cons_of_mem _ (ih (by simpa [findForm, hr] using h))

/-- Each row of the decoder builds the instruction that the encoder spells with the row's opcode and as many of the two
operand bytes as the instruction is long. -/
theorem encode_form : ∀ r ∈ allForms, ∀ b1 b2, encode (r.2 b1 b2) = [r.1, b1, b2].take (r.2 b1 b2).length := by
  simp [allForms, formsOthers, formsAdc, formsSta, formsLda, encode, encodeF2, encodeF3_mkWord, Instr.length]

theorem decodeOp_of_findForm {op : Byte} {form : InstrForm} (h : findForm allForms op = some form) (b1 b2 : Byte) :
    decodeOp op b1 b2 = .ok (form b1 b2) := by
  rw [decodeOp, h]

theorem encode_of_decodeOp {op b1 b2 : Byte} {i : Instr} (h : decodeOp op b1 b2 = .ok i) :
    encode i = [op, b1, b2].take i.length := by
  cases hform : findForm allForms op with
  | none => simp [decodeOp_of_isNone (Option.isNone_iff_eq_none.2 hform)] at h
  | some form =>
    rw [decodeOp_of_findForm hform] at h
    cases h
    exact encode_form _ (mem_of_findForm hform) b1 b2

theorem decodeOp_of_encode {op b1 b2 : Byte} {i : Instr} (h : encode i = [op, b1, b2].take i.length) :
    decodeOp op b1 b2 = .ok i := by
  cases i with
  | tax | inx | brk => cases h; rfl
  | ldaImmediate b | ldaZeroPage b | ldaZeroPageX b | ldaIndirectX b | ldaIndirectY b
  | staZeroPage b | staZeroPageX b | staIndirectX b | staIndirectY b
  | adcImmediate b | adcZeroPage b | adcZeroPageX b | adcIndirectX b | adcIndirectY b => cases h; rfl
  | ldaAbsolute w | ldaAbsoluteX w | ldaAbsoluteY w | staAbsolute w | staAbsoluteX w | staAbsoluteY w
  | adcAbsolute w | adcAbsoluteX w | adcAbsoluteY w =>
    obtain ⟨hi, lo, rfl⟩ := exists_mkWord w
    rw [encode, encodeF3_mkWord] at h
    cases h
    rfl

/-- The decoder of an opcode byte with the two bytes after it is the encoder read backwards. -/
theorem decodeOp_eq_ok_iff {op b1 b2 : Byte} {i : Instr} :
    decodeOp op b1 b2 = .ok i ↔ encode i = [op, b1, b2].take i.length :=
  ⟨encode_of_decodeOp, decodeOp_of_encode⟩

/-! Lists of bytes -/

/-- The zero bytes that `decode` reads beyond a list's end do not count for an instruction that ends inside the list. -/
theorem take_padded {op : Byte} {tail : List Byte} {n : Nat} (hn : n ≤ 3) (hlen : n ≤ (op :: tail).length) :
    [op, tail.getD 0 0#8, tail.getD 1 0#8].take n = (op :: tail).take n := by
  match tail with
  | [] => exact List.take_append_of_le_length (l₁ := [op]) hlen
  | [b1] => exact List.take_append_of_le_length (l₁ := [op, b1]) hlen
  | b1 :: b2 :: tail => exact (List.take_append_of_le_length (l₁ := [op, b1, b2]) hn).symm

theorem decode_cons_eq_ok_iff {op : Byte} {tail rest : List Byte} {i : Instr} :
    decode (op :: tail) = .ok (i, rest) ↔
      decodeOp op (tail.getD 0 0#8) (tail.getD 1 0#8) = .ok i ∧ i.length ≤ (op :: tail).length ∧
        (op :: tail).drop i.length = rest := by
  cases hop : decodeOp op (tail.getD 0 0#8) (tail.getD 1 0#8) with
  | error e =>
    simp only [decode, hop]
    exact iff_of_false nofun nofun
  | ok j =>
    by_cases hlen : tail.length + 1 < j.length
    · simp only [decode, hop, if_pos hlen, List.length_cons]
      refine iff_of_false nofun ?_
      rintro ⟨hji, hle, -⟩
      cases hji
      omega
    · simp only [decode, hop, if_neg hlen, List.length_cons, Except.ok.injEq, Prod.mk.injEq]
      refine and_congr_right ?_
      rintro rfl
      rw [List.drop_cons j.length_pos]
      exact (and_iff_right (by omega)).symm

/-- A list of bytes decodes to an instruction and a rest exactly when it is the instruction's encoding and then the rest. -/
theorem decode_eq_ok_iff {bytes rest : List Byte} {i : Instr} :
    decode bytes = .ok (i, rest) ↔ bytes = encode i ++ rest := by
  have hlen := length_encode i
  have hpos := i.length_pos
  cases bytes with
  | nil =>
    refine iff_of_false nofun fun h => ?_
    obtain ⟨henc, -⟩ := List.append_eq_nil_iff.1 h.symm
    exact hpos.ne (by rw [← hlen, henc, List.length_nil])
  | cons op tail =>
    rw [decode_cons_eq_ok_iff, decodeOp_eq_ok_iff]
    constructor
    · rintro ⟨henc, hle, rfl⟩
      rw [henc, take_padded i.length_le_three hle, List.take_append_drop]
    · intro h
      have hle : i.length ≤ (op :: tail).length := by simp [h, hlen]
      rw [take_padded i.length_le_three hle, h]
      exact ⟨(List.take_left' hlen).symm, h ▸ hle, List.drop_left' hlen⟩

end Sys2Proof.Machine
end

section
/-! PROOFS. What a row of any table does (30_encoding.md R71), from the effect of the row, and the taking in of a provider's
table. -/

namespace Sys2Proof.Machine

/-! The step at a row -/

section
variable {p : Params} {e : OpRecord} {s : State} (hr : s.run = .running)
  (hl : OpTable.lookup p.optable (s.readByte s.pc) = some e)
include hr hl

theorem stepWith_of_rowEffect {t : State} (he : RowEffect p e s t) : stepWith p s = .next t :=
  stepWith_eq_next_iff.2 ⟨hr, e, hl, he⟩

/-- An operand-consuming row without an operand mode faults before any write (60_exceptions.md R182). -/
theorem stepWith_of_noneAddressing (hm : e.mnemonic = .lda ∨ e.mnemonic = .sta ∨ e.mnemonic = .adc)
    (hmode : e.mode = .noneAddressing) : stepWith p s = .fault (.addressingModeFault (s.readByte s.pc) s.pc) := by
  have hnone : effectiveAddress e.mode (s.advance 1) = none := effectiveAddress_eq_none.2 hmode
  rw [stepWith_of_lookup hr hl]
  rcases hm with hm | hm | hm <;> simp only [dispatchRow, hm, withOperand, hnone, outcomeOf]

theorem stepWith_lda {ea : Word} (hea : effectiveAddress e.mode (s.advance 1) = some ea) (hm : e.mnemonic = .lda) :
    ∃ t, stepWith p s = .next t ∧ LoadsA (s.readByte ea) e.length s t :=
  ⟨_, stepWith_of_rowEffect hr hl (.lda ea hm hea), s.loadA_effect _ _⟩

theorem stepWith_sta {ea : Word} (hea : effectiveAddress e.mode (s.advance 1) = some ea) (hm : e.mnemonic = .sta) :
    ∃ t, stepWith p s = .next t ∧ StoresA ea e.length s t :=
  ⟨_, stepWith_of_rowEffect hr hl (.sta ea hm hea), s.storeTo_effect _ _⟩

theorem stepWith_adc {ea : Word} (hea : effectiveAddress e.mode (s.advance 1) = some ea) (hm : e.mnemonic = .adc) :
    ∃ t, stepWith p s = .next t ∧ AddsToA (s.readByte ea) e.length s t :=
  ⟨_, stepWith_of_rowEffect hr hl (.adc ea hm hea), s.addToA_effect _ _⟩

theorem stepWith_tax (hm : e.mnemonic = .tax) : ∃ t, stepWith p s = .next t ∧ LoadsX s.a e.length s t :=
  ⟨_, stepWith_of_rowEffect hr hl (.tax hm), s.loadX_effect _ _⟩

theorem stepWith_inx (hm : e.mnemonic = .inx) : ∃ t, stepWith p s = .next t ∧ LoadsX (inc8 s.x) e.length s t :=
  ⟨_, stepWith_of_rowEffect hr hl (.inx hm), s.loadX_effect _ _⟩

theorem stepWith_brk_of_no_stackEffects (hm : e.mnemonic = .brk) (hb : p.brkStackEffects = false) :
    ∃ t, stepWith p s = .next t ∧ HaltsAfterOpcode s t := by
  refine ⟨_, stepWith_of_rowEffect hr hl (.brk hm), ?_⟩
  rw [hb]
  exact s.brkHalt_effect

end

theorem toNat_inc8 (v : Byte) : (inc8 v).toNat = (v.toNat + 1) % 256 := by
  rw [inc8, BitVec.toNat_add]; rfl

/-- The resolver's address for Immediate, with the operand byte after the opcode byte (40_addressing_modes.md R81). -/
theorem effectiveAddress_immediate (s : State) :
    effectiveAddress .immediate (s.advance 1) = some (BitVec.ofNat 16 (s.pc.toNat + 1)) :=
  congrArg some (word_eq_ofNat (by simp))

/-! A provider's table -/

/-- The six texts of `Mnemonic.ofText` are all it knows. -/
theorem ofText_eq_none_iff {text : String} :
    Mnemonic.ofText text = none ↔ text ∉ ["LDA", "STA", "TAX", "INX", "ADC", "BRK"] := by
  simp only [Mnemonic.ofText, List.mem_cons, List.not_mem_nil, or_false, not_or]
  split_ifs <;> simp_all

/-- A record with an unknown mnemonic makes the reading end in an unknown mnemonic, its own or that of an earlier record. -/
theorem exists_ofRaw_error (before after : List (Byte × RawRecord)) (op : Byte) {r : RawRecord}
    (hr : Mnemonic.ofText r.mnemonic = none) :
    ∃ text, OpTable.ofRaw (before ++ (op, r) :: after) = .error text ∧ Mnemonic.ofText text = none := by
  induction before with
  | nil => exact ⟨r.mnemonic, by simp only [List.nil_append, OpTable.ofRaw, hr], hr⟩
  | cons c before ih =>
    obtain ⟨op', r'⟩ := c
    cases hr' : Mnemonic.ofText r'.mnemonic with
    | none => exact ⟨r'.mnemonic, by simp only [List.cons_append, OpTable.ofRaw, hr'], hr'⟩
    | some m =>
      obtain ⟨text, hrest, htext⟩ := ih
      exact ⟨text, by simp only [List.cons_append, OpTable.ofRaw, hr', hrest], htext⟩

theorem exists_takeTable_error (p : Params) (before after : List (Byte × RawRecord)) (op : Byte) {r : RawRecord}
    (hr : Mnemonic.ofText r.mnemonic = none) :
    ∃ text, takeTable (before ++ (op, r) :: after) p = .error (.unknownMnemonic text) ∧ Mnemonic.ofText text = none := by
  obtain ⟨text, hraw, htext⟩ := exists_ofRaw_error before after op hr
  exact ⟨text, by simp only [takeTable, hraw], htext⟩

/-! Well-formed tables -/

/-- The length of a well-formed table's row (30_encoding.md R63). -/
theorem length_eq_of_wf {t : OpTable} (h : OpTable.wf t = true) {r : Byte × OpRecord} (hr : r ∈ t) :
    r.2.length = 1 + r.2.mode.operandBytes := by
  obtain ⟨-, hrows⟩ := Bool.and_eq_true_iff.1 h
  have hrow := List.all_eq_true.1 hrows r hr
  simp only [OpRecord.lengthAgrees, Bool.and_eq_true, beq_iff_eq] at hrow
  obtain ⟨⟨hlen, -⟩, -⟩ := hrow
  exact hlen

end Sys2Proof.Machine
end

section
/-! PROOFS. The statements about the encoding (30_encoding.md). -/

namespace Sys2Proof.Machine

/-- Settles O18: the encoding and then the rest is the one list of bytes that decodes to the instruction and the rest. -/
theorem decodeOfEncodeIsTheInstruction : Obligations.DecodeOfEncodeIsTheInstruction :=
  fun _ _ _ => decode_eq_ok_iff.2 rfl

/-- Settles O19: the other direction of the same equivalence. -/
theorem decodedBytesAreAnEncoding : Obligations.DecodedBytesAreAnEncoding :=
  fun _ _ _ => decode_eq_ok_iff.1

/-- Settles O23: each clause about a step is the effect of the row at `pc`, and a refused table is one whose reading ends in
an unknown mnemonic. -/
theorem customTableRowsMeanWhatTheyNeed : Obligations.CustomTableRowsMeanWhatTheyNeed := by
  refine ⟨fun p e s hr hl => ⟨stepWith_of_noneAddressing hr hl, fun hmode => ?_, fun ea hea =>
    ⟨stepWith_lda hr hl hea, stepWith_sta hr hl hea, stepWith_adc hr hl hea⟩, fun hm hmode => ?_, stepWith_tax hr hl,
    fun hm => ?_, stepWith_brk_of_no_stackEffects hr hl⟩, fun p before after op r hunknown => ?_⟩
  · exact Option.ne_none_iff_exists'.1 (mt effectiveAddress_eq_none.1 hmode)
  · exact stepWith_sta hr hl (hmode ▸ effectiveAddress_immediate s) hm
  · obtain ⟨t, hstep, heffect⟩ := stepWith_inx hr hl hm
    exact ⟨t, inc8 s.x, hstep, toNat_inc8 s.x, heffect⟩
  · obtain ⟨text, htake, htext⟩ := exists_takeTable_error p before after op (ofText_eq_none_iff.2 hunknown)
    exact ⟨text, htake, ofText_eq_none_iff.1 htext⟩

/-- Settles O17: each word is its instruction's encoding followed by the rest. -/
theorem sampleWordsDecodeAsTheTableSays : Obligations.SampleWordsDecodeAsTheTableSays :=
  ⟨decode_eq_ok_iff.2 rfl, decode_eq_ok_iff.2 rfl, decode_eq_ok_iff.2 rfl, decode_eq_ok_iff.2 rfl,
    decode_eq_ok_iff.2 rfl, decode_eq_ok_iff.2 rfl, decode_eq_ok_iff.2 rfl⟩

/-- Settles O51: the lengths follow from the table being well formed. -/
theorem defaultTableRowsAgreeWithTheirModes : Obligations.DefaultTableRowsAgreeWithTheirModes := by
  have hwf : OpTable.wf defaultTable = true := by decide
  exact ⟨hwf, rfl, fun _ => length_eq_of_wf hwf, rfl, by decide, by decide⟩

end Sys2Proof.Machine
end

section
/-! PROOFS. The statements about the addressing modes (40_addressing_modes.md). -/

namespace Sys2Proof.Machine

/-- The two operand bytes of the Absolute modes, as the number the statements name (20_memory.md R42). -/
theorem State.readWord_eq (s : State) (w : Word) : s.readWord w = BitVec.ofNat 16 (s.wordAt w.toNat) := by
  rw [← s.toNat_readWord, BitVec.ofNat_toNat, BitVec.setWidth_eq]

/-- The address of an operand word plus an index, as the number the statements name (40_addressing_modes.md R86, R87). -/
theorem State.absoluteIndexed_readWord (s : State) (w : Word) (index : Byte) :
    absoluteIndexed (s.readWord w) index = BitVec.ofNat 16 (absoluteIndexedNat (s.wordAt w.toNat) index) := by
  rw [absoluteIndexed_eq, s.toNat_readWord]

/-- Settles O29: each mode's address function is its numeric function, applied to the operand bytes at `pc`. -/
theorem resolverGivesEachModesAddress : Obligations.ResolverGivesEachModesAddress := by
  intro s
  refine ⟨rfl, ?zeroPage, ?absolute, ?zeroPageX, ?zeroPageY, ?absoluteX, ?absoluteY, ?indirectX, ?indirectY, rfl⟩
  case zeroPage => exact congrArg some (zeroPageAddr_eq _)
  case absolute => exact congrArg some (s.readWord_eq _)
  case zeroPageX | zeroPageY => exact congrArg some (zeroPageIndexed_eq _ _)
  case absoluteX | absoluteY => exact congrArg some (s.absoluteIndexed_readWord _ _)
  case indirectX => exact congrArg some (s.indirectXAddr_eq _)
  case indirectY => exact congrArg some (s.indirectYAddr_eq _)

/-- Settles O30: only NoneAddressing has no address, and no mode's address looks at A or the status. -/
theorem resolverIsTotalAndReadsNoAccumulatorOrStatus : Obligations.ResolverIsTotalAndReadsNoAccumulatorOrStatus :=
  fun mode _ _ => ⟨fun hmode => Option.ne_none_iff_exists'.1 (mt effectiveAddress_eq_none.1 hmode),
    effectiveAddress_congr mode⟩

end Sys2Proof.Machine
end

section
/-! PROOFS. The statements about the Flag Engine and the ALU (41_flag_engine_alu.md). -/

namespace Sys2Proof.Machine

/-- After `SetZN`, Zero says the value is 0 and Negative that it is at least 0x80 (41_flag_engine_alu.md R100). -/
theorem not_zero_and_negative_setZN (p v : Byte) :
    ¬((setZN p v).getLsbD 1 = true ∧ (setZN p v).getLsbD 7 = true) := by
  obtain ⟨hzero, hnegative, -⟩ := znFrom_setZN p v
  rw [hzero, hnegative, decide_eq_true_iff, decide_eq_true_iff]
  omega

theorem signedValue_of_lt {v : Byte} (h : v.toNat < 128) : signedValue v = v.toNat := if_pos h

theorem signedValue_of_ge {v : Byte} (h : 128 ≤ v.toNat) : signedValue v = (v.toNat : Int) - 256 := if_neg h.not_gt

theorem addC_overflow_iff_getLsbD (a m : Byte) (c : Bool) :
    (addC a m c).overflow = true ↔
      a.getLsbD 7 = m.getLsbD 7 ∧ (addC a m c).result.getLsbD 7 ≠ a.getLsbD 7 := by
  rw [addC_overflow, decide_eq_true_iff]

/-- The sign test of `AddC`, read on the operands and the unreduced sum (41_flag_engine_alu.md R103). -/
theorem addC_overflow_iff_toNat (a m : Byte) (c : Bool) :
    (addC a m c).overflow = true ↔
      (128 ≤ a.toNat ↔ 128 ≤ m.toNat) ∧
        ¬(128 ≤ (a.toNat + m.toNat + c.toNat) % 256 ↔ 128 ≤ a.toNat) := by
  rw [addC_overflow_iff_getLsbD, getLsbD_seven a, getLsbD_seven m, getLsbD_seven (addC a m c).result, addC_result_toNat,
    ne_eq, decide_eq_decide, decide_eq_decide]

/-- By the signs of the operands: with unlike signs the signed sum cannot leave the range and `AddC` reports no overflow; with
like signs it leaves the range exactly when the sum modulo 256 has the other sign (41_flag_engine_alu.md R103). -/
theorem addC_overflow_iff_signedValue (a m : Byte) (c : Bool) :
    (addC a m c).overflow = true ↔
      ¬(-128 ≤ signedValue a + signedValue m + (c.toNat : Int) ∧
        signedValue a + signedValue m + (c.toNat : Int) ≤ 127) := by
  have ha := a.isLt
  have hm := m.isLt
  have hc := c.toNat_le
  rw [addC_overflow_iff_toNat]
  rcases lt_or_ge a.toNat 128 with hapos | haneg <;> rcases lt_or_ge m.toNat 128 with hmpos | hmneg
  · rw [signedValue_of_lt hapos, signedValue_of_lt hmpos]; omega
  · rw [signedValue_of_lt hapos, signedValue_of_ge hmneg]; omega
  · rw [signedValue_of_ge haneg, signedValue_of_lt hmpos]; omega
  · rw [signedValue_of_ge haneg, signedValue_of_ge hmneg]; omega

/-- Settles O31: the four clauses are the lemmas of `AddC`'s result, carry and overflow, the last by the operands' signs. -/
theorem addCComputesSumCarryAndSignedOverflow : Obligations.AddCComputesSumCarryAndSignedOverflow := fun a m c =>
  ⟨addC_result_toNat a m c, by rw [addC_carryOut, decide_eq_true_iff], addC_overflow_iff_getLsbD a m c,
    addC_overflow_iff_signedValue a m c⟩

/-- Settles O32: what `SetZN` writes decides both flags by one value, so they exclude each other. -/
theorem flagEngineSetsZeroAndNegativeOnly : Obligations.FlagEngineSetsZeroAndNegativeOnly := fun p v =>
  ⟨znFrom_setZN p v, not_zero_and_negative_setZN p v, toNat_inc8 v⟩

end Sys2Proof.Machine
end

section
/-! PROOFS. The bodies of LDA and STA at a numeric address, and what a step at an LDA or an STA does in the names of the
statements (42_load_store.md R110, R119). -/

namespace Sys2Proof.Machine

/-! The addresses of the Absolute modes -/

/-- The operand of an `F3` instruction, low byte first (30_encoding.md R62). -/
theorem append_bytes_eq (hi lo : Byte) : (hi ++ lo : Word) = BitVec.ofNat 16 (256 * hi.toNat + lo.toNat) := by
  rw [← toNat_append_bytes, BitVec.ofNat_toNat, BitVec.setWidth_eq]

theorem absoluteIndexed_append_bytes (hi lo index : Byte) :
    absoluteIndexed (hi ++ lo) index = BitVec.ofNat 16 (absoluteIndexedNat (256 * hi.toNat + lo.toNat) index) := by
  rw [absoluteIndexed_eq, toNat_append_bytes]

/-! The bodies -/

section
variable {ea : Word} {k : Nat}

theorem State.loadFrom_effect (s : State) (n : Nat) (hea : ea = BitVec.ofNat 16 k) :
    LoadsA (s.byteAt k) n s ((s.loadFrom ea).advance n) :=
  hea ▸ s.loadA_effect _ n

theorem State.storeTo_effect_ofNat (s : State) (n : Nat) (hea : ea = BitVec.ofNat 16 k) :
    StoresA (BitVec.ofNat 16 k) n s ((s.storeTo ea).advance n) :=
  hea ▸ s.storeTo_effect ea n

end

/-! The step at an LDA or an STA -/

section
variable {p : Params} {e : OpRecord} {s t : State}

/-- A row of LDA loads from the address the resolver gives. -/
theorem RowEffect.exists_loadsA (h : RowEffect p e s t) (hm : e.mnemonic = .lda) :
    ∃ ea, effectiveAddress e.mode (s.advance 1) = some ea ∧ LoadsA (s.readByte ea) e.length s t := by
  cases h with
  | lda ea _ hea => exact ⟨ea, hea, s.loadA_effect _ _⟩
  | sta ea hm' | adc ea hm' | tax hm' | inx hm' | brk hm' => simp [hm'] at hm

/-- A row of STA that answers has an operand mode. -/
theorem RowEffect.exists_effectiveAddress_of_sta (h : RowEffect p e s t) (hm : e.mnemonic = .sta) :
    ∃ ea, effectiveAddress e.mode (s.advance 1) = some ea := by
  cases h with
  | sta ea _ hea => exact ⟨ea, hea⟩
  | lda ea hm' | adc ea hm' | tax hm' | inx hm' | brk hm' => simp [hm'] at hm

theorem State.exists_lookup_of_mnemonicAt {m : Mnemonic} (hm : s.mnemonicAt = some m) :
    ∃ e, OpTable.lookup defaultTable (s.readByte s.pc) = some e ∧ e.mnemonic = m :=
  Option.map_eq_some_iff.1 hm

/-- The step of the base hardware at an LDA. -/
theorem step_loadsA (hr : s.run = .running) (hm : s.mnemonicAt = some .lda) :
    ∃ ea t n, s.targetAt = some ea ∧ step s = .next t ∧ LoadsA (s.readByte ea) n s t := by
  obtain ⟨e, hl, hlda⟩ := State.exists_lookup_of_mnemonicAt hm
  obtain ⟨t, hstep, he⟩ := step_of_lookup hr hl
  obtain ⟨ea, hea, hload⟩ := he.exists_loadsA hlda
  exact ⟨ea, t, e.length, (State.targetAt_of_lookup hl).trans hea, hstep, hload⟩

/-- An STA that completes has a target address. -/
theorem exists_targetAt_of_step_sta (hm : s.mnemonicAt = some .sta) (h : step s = .next t) :
    ∃ ea, s.targetAt = some ea := by
  obtain ⟨-, e, hl, he⟩ := step_eq_next_iff.1 h
  rw [State.mnemonicAt_of_lookup hl, Option.some.injEq] at hm
  obtain ⟨ea, hea⟩ := he.exists_effectiveAddress_of_sta hm
  exact ⟨ea, (State.targetAt_of_lookup hl).trans hea⟩

end

end Sys2Proof.Machine
end

section
/-! PROOFS. The statements about LDA and STA (42_load_store.md). -/

namespace Sys2Proof.Machine

/-- Settles O1: the body of LDA with the operand byte as its data. -/
theorem ldaImmediateLoadsItsOperandByte : Obligations.LdaImmediateLoadsItsOperandByte :=
  fun b1 s => ⟨rfl, _, rfl, s.loadA_effect b1 2⟩

/-- Settles O2: the body of LDA at each zero-page address. -/
theorem ldaZeroPageFormsLoadFromZeroPage : Obligations.LdaZeroPageFormsLoadFromZeroPage := fun b1 s =>
  ⟨⟨rfl, _, rfl, s.loadFrom_effect 2 (zeroPageAddr_eq b1)⟩,
    ⟨rfl, _, rfl, s.loadFrom_effect 2 (zeroPageIndexed_eq b1 s.x)⟩⟩

/-- Settles O3: the body of LDA at the operand word, and at its sums with X and Y. -/
theorem ldaAbsoluteFormsLoadFromOperandAddress : Obligations.LdaAbsoluteFormsLoadFromOperandAddress := fun b1 b2 s =>
  ⟨⟨encodeF3_mkWord _ b2 b1, _, rfl, s.loadFrom_effect 3 (append_bytes_eq b2 b1)⟩,
    ⟨encodeF3_mkWord _ b2 b1, _, rfl, s.loadFrom_effect 3 (absoluteIndexed_append_bytes b2 b1 s.x)⟩,
    ⟨encodeF3_mkWord _ b2 b1, _, rfl, s.loadFrom_effect 3 (absoluteIndexed_append_bytes b2 b1 s.y)⟩⟩

/-- Settles O4: the body of LDA at the address each zero-page pointer gives. -/
theorem ldaIndirectFormsLoadThroughZeroPagePointer : Obligations.LdaIndirectFormsLoadThroughZeroPagePointer :=
  fun b1 s =>
    ⟨⟨rfl, _, rfl, s.loadFrom_effect 2 (s.indirectXAddr_eq b1)⟩,
      ⟨rfl, _, rfl, s.loadFrom_effect 2 (s.indirectYAddr_eq b1)⟩⟩

/-- Settles O5: the body of STA at each zero-page address. -/
theorem staZeroPageFormsStoreToZeroPage : Obligations.StaZeroPageFormsStoreToZeroPage := fun b1 s =>
  ⟨⟨rfl, _, rfl, s.storeTo_effect_ofNat 2 (zeroPageAddr_eq b1)⟩,
    ⟨rfl, _, rfl, s.storeTo_effect_ofNat 2 (zeroPageIndexed_eq b1 s.x)⟩⟩

/-- Settles O6: the body of STA at the operand word, and at its sums with X and Y. -/
theorem staAbsoluteFormsStoreToOperandAddress : Obligations.StaAbsoluteFormsStoreToOperandAddress := fun b1 b2 s =>
  ⟨⟨encodeF3_mkWord _ b2 b1, _, rfl, s.storeTo_effect_ofNat 3 (append_bytes_eq b2 b1)⟩,
    ⟨encodeF3_mkWord _ b2 b1, _, rfl, s.storeTo_effect_ofNat 3 (absoluteIndexed_append_bytes b2 b1 s.x)⟩,
    ⟨encodeF3_mkWord _ b2 b1, _, rfl, s.storeTo_effect_ofNat 3 (absoluteIndexed_append_bytes b2 b1 s.y)⟩⟩

/-- Settles O7: the body of STA at the address each zero-page pointer gives in the state before the store. -/
theorem staIndirectFormsStoreThroughZeroPagePointer : Obligations.StaIndirectFormsStoreThroughZeroPagePointer :=
  fun b1 s =>
    ⟨⟨rfl, _, rfl, s.storeTo_effect_ofNat 2 (s.indirectXAddr_eq b1)⟩,
      ⟨rfl, _, rfl, s.storeTo_effect_ofNat 2 (s.indirectYAddr_eq b1)⟩⟩

/-- Settles O39: the store leaves the core running with its status kept, and the byte at the common address is A. -/
theorem storeThenLoadReturnsTheStoredByte : Obligations.StoreThenLoadReturnsTheStoredByte := by
  intro s t hsta hstep hlda htarget
  obtain ⟨ea, hea⟩ := exists_targetAt_of_step_sta hsta hstep
  obtain ⟨hr, _, hstored, -, -, -, -, hp, -, hrun, -⟩ := step_storesA hsta hstep hea
  obtain ⟨ea', u, _, hea', hnext, ha, hzn, -⟩ := step_loadsA (hrun.trans hr) hlda
  obtain rfl : ea' = ea := Option.some.inj (hea'.symm.trans (htarget.trans hea))
  rw [hstored] at ha hzn
  rw [hp] at hzn
  exact ⟨u, hnext, ha, hzn⟩

end Sys2Proof.Machine
end

section
/-! PROOFS. The statements about TAX and INX (43_register_ops.md). -/

namespace Sys2Proof.Machine

/-- Settles O12: the common body of TAX and INX, writing A to X. -/
theorem taxCopiesAToX : Obligations.TaxCopiesAToX :=
  fun s => ⟨rfl, _, rfl, s.loadX_effect s.a 1⟩

/-- Settles O13: the common body of TAX and INX, writing `Inc8` of X to X; `Inc8` adds modulo 256. -/
theorem inxIncrementsXModulo256 : Obligations.InxIncrementsXModulo256 :=
  fun s => ⟨rfl, _, inc8 s.x, rfl, toNat_inc8 s.x, s.loadX_effect (inc8 s.x) 1⟩

end Sys2Proof.Machine
end

section
/-! PROOFS. The body of ADC at a numeric address, and what LDA, ADC and STA do one after another (44_arithmetic.md R135,
R144). -/

namespace Sys2Proof.Machine

theorem State.addFrom_effect {ea : Word} {k : Nat} (s : State) (n : Nat) (hea : ea = BitVec.ofNat 16 k) :
    AddsToA (s.byteAt k) n s ((s.addFrom ea).advance n) :=
  hea ▸ s.addToA_effect _ n

/-! The step at an LDA or an ADC that completes -/

section
variable {p : Params} {e : OpRecord} {s t : State} {ea : Word}

/-- A row of ADC adds from the address the resolver gives. -/
theorem RowEffect.addsToA (h : RowEffect p e s t) (hm : e.mnemonic = .adc)
    (hea : effectiveAddress e.mode (s.advance 1) = some ea) : AddsToA (s.readByte ea) e.length s t := by
  cases h with
  | adc ea' _ hea' =>
    obtain rfl : ea' = ea := Option.some.inj (hea'.symm.trans hea)
    exact s.addToA_effect _ _
  | lda ea' hm' | sta ea' hm' | tax hm' | inx hm' | brk hm' => simp [hm'] at hm

/-- The step of the base hardware at an ADC, in the names of the statements. -/
theorem step_addsToA (hm : s.mnemonicAt = some .adc) (hea : s.targetAt = some ea) (h : step s = .next t) :
    ∃ n, AddsToA (s.readByte ea) n s t := by
  obtain ⟨-, e, hl, he⟩ := step_eq_next_iff.1 h
  rw [State.mnemonicAt_of_lookup hl, Option.some.injEq] at hm
  rw [State.targetAt_of_lookup hl] at hea
  exact ⟨e.length, he.addsToA hm hea⟩

/-- The step at an LDA is one next state, so `step_loadsA` speaks of this one. -/
theorem loadsA_of_step (hm : s.mnemonicAt = some .lda) (hea : s.targetAt = some ea) (h : step s = .next t) :
    ∃ n, LoadsA (s.readByte ea) n s t := by
  obtain ⟨hr, -⟩ := step_eq_next_iff.1 h
  obtain ⟨ea', t', n, hea', hstep, hload⟩ := step_loadsA hr hm
  obtain rfl : ea' = ea := Option.some.inj (hea'.symm.trans hea)
  obtain rfl : t' = t := Host.Outcome.next.inj (hstep.symm.trans h)
  exact ⟨n, hload⟩

end

/-! One byte of a longer addition -/

/-- LDA, ADC and STA put the sum of the two bytes and the incoming Carry at the store's address, its carry-out in Carry, and
leave the rest of memory. -/
theorem load_add_store_effect {v w : Byte} {ea : Word} {n₀ n₁ n₂ : Nat} {s t u r : State} (hload : LoadsA v n₀ s t)
    (hadd : AddsToA w n₁ t u) (hstore : StoresA ea n₂ u r) :
    (r.readByte ea).toNat = (v.toNat + w.toNat + (s.p.getLsbD 0).toNat) % 256 ∧
      r.p.getLsbD 0 = decide (v.toNat + w.toNat + (s.p.getLsbD 0).toNat > 255) ∧
      MemKeptBut ea s r := by
  obtain ⟨hta, ⟨-, -, hkeep⟩, -, -, -, -, -, htmem⟩ := hload
  obtain ⟨hua, hcarry, -, -, -, -, -, -, -, -, -, humem⟩ := hadd
  obtain ⟨hstored, hrmem, -, -, -, hrp, -⟩ := hstore
  have hsum : adcSum t w = v.toNat + w.toNat + (s.p.getLsbD 0).toNat := by
    rw [adcSum, hta, hkeep 0 (by decide) (by decide)]
  rw [hsum] at hua hcarry
  exact ⟨hstored ▸ hua, hrp ▸ hcarry,
    fun addr hne => (hrmem addr hne).trans ((humem addr).trans (htmem addr))⟩

/-- The carry-out of a sum of two bytes and a carry is its ninth bit. -/
theorem toNat_decide_gt_255 {n : Nat} (h : n < 512) : (decide (n > 255)).toNat = n / 256 := by
  by_cases hn : n > 255
  · rw [decide_eq_true hn, Bool.toNat_true]; omega
  · rw [decide_eq_false hn, Bool.toNat_false]; omega

/-- The high sum takes in the low sum's carry-out: together they are the 16-bit sum and its carry-out. -/
theorem carry_chain_eq_sum {lo lo' hi hi' : Nat} (hlo : lo < 256) (hlo' : lo' < 256) :
    256 * ((hi + hi' + (decide (lo + lo' > 255)).toNat) % 256) + (lo + lo') % 256 =
        (256 * hi + lo + (256 * hi' + lo')) % 65536 ∧
      (hi + hi' + (decide (lo + lo' > 255)).toNat > 255 ↔ 256 * hi + lo + (256 * hi' + lo') > 65535) := by
  rw [toNat_decide_gt_255 (by omega)]
  omega

end Sys2Proof.Machine
end

section
/-! PROOFS. The statements about ADC (44_arithmetic.md). -/

namespace Sys2Proof.Machine

/-- Settles O8: the body of ADC with the operand byte as its addend. -/
theorem adcImmediateAddsItsOperandByte : Obligations.AdcImmediateAddsItsOperandByte :=
  fun b1 s => ⟨rfl, _, rfl, s.addToA_effect b1 2⟩

/-- Settles O9: the body of ADC at each zero-page address. -/
theorem adcZeroPageFormsAddFromZeroPage : Obligations.AdcZeroPageFormsAddFromZeroPage := fun b1 s =>
  ⟨⟨rfl, _, rfl, s.addFrom_effect 2 (zeroPageAddr_eq b1)⟩,
    ⟨rfl, _, rfl, s.addFrom_effect 2 (zeroPageIndexed_eq b1 s.x)⟩⟩

/-- Settles O10: the body of ADC at the operand word, and at its sums with X and Y. -/
theorem adcAbsoluteFormsAddFromOperandAddress : Obligations.AdcAbsoluteFormsAddFromOperandAddress := fun b1 b2 s =>
  ⟨⟨encodeF3_mkWord _ b2 b1, _, rfl, s.addFrom_effect 3 (append_bytes_eq b2 b1)⟩,
    ⟨encodeF3_mkWord _ b2 b1, _, rfl, s.addFrom_effect 3 (absoluteIndexed_append_bytes b2 b1 s.x)⟩,
    ⟨encodeF3_mkWord _ b2 b1, _, rfl, s.addFrom_effect 3 (absoluteIndexed_append_bytes b2 b1 s.y)⟩⟩

/-- Settles O11: the body of ADC at the address each zero-page pointer gives. -/
theorem adcIndirectFormsAddThroughZeroPagePointer : Obligations.AdcIndirectFormsAddThroughZeroPagePointer :=
  fun b1 s =>
    ⟨⟨rfl, _, rfl, s.addFrom_effect 2 (s.indirectXAddr_eq b1)⟩,
      ⟨rfl, _, rfl, s.addFrom_effect 2 (s.indirectYAddr_eq b1)⟩⟩

/-- Settles O40: each half of the chain adds one byte, the second with the carry-out of the first as its Carry and with the
first stored byte left in memory. -/
theorem adcChainAddsSixteenBitNumbers : Obligations.AdcChainAddsSixteenBitNumbers := by
  refine ⟨fun s0 s1 s2 s3 s4 s5 s6 e0 e1 e2 e3 e4 e5 hm0 hea0 h0 hm1 hea1 h1 hm2 hea2 h2 hm3 hea3 h3 hm4 hea4 h4
    hm5 hea5 h5 hcarry0 hne => ?chain, fun s t h hm => ?carryKept, rfl⟩
  case chain =>
    obtain ⟨_, hload0⟩ := loadsA_of_step hm0 hea0 h0
    obtain ⟨_, hadd1⟩ := step_addsToA hm1 hea1 h1
    obtain ⟨-, _, hstore2⟩ := step_storesA hm2 h2 hea2
    obtain ⟨_, hload3⟩ := loadsA_of_step hm3 hea3 h3
    obtain ⟨_, hadd4⟩ := step_addsToA hm4 hea4 h4
    obtain ⟨-, _, hstore5⟩ := step_storesA hm5 h5 hea5
    obtain ⟨hlow, hcarry3, -⟩ := load_add_store_effect hload0 hadd1 hstore2
    obtain ⟨hhigh, hcarry6, hkept⟩ := load_add_store_effect hload3 hadd4 hstore5
    rw [hcarry0, Bool.toNat_false, Nat.add_zero] at hlow hcarry3
    rw [hcarry3] at hhigh hcarry6
    rw [hhigh, hkept e2 hne, hlow, hcarry6, decide_eq_decide]
    exact carry_chain_eq_sum (s0.readByte e0).isLt (s1.readByte e1).isLt
  case carryKept =>
    obtain ⟨-, hcarryKept, -⟩ := statusBitsChangeOnlyUnderTheirInstructions s t h
    exact (hcarryKept hm).1

end Sys2Proof.Machine
end

section
/-! PROOFS. Where `pc` stands after a row, and what BRK with stack effects leaves in memory, status and `pc`
(45_control_brk.md R152, R154). -/

namespace Sys2Proof.Machine

/-! The row at `pc` -/

section
variable {p : Params} {e : OpRecord} {s t : State}

/-- Every row but BRK's advances by its length, and BRK without stack effects by 1. -/
theorem RowEffect.pcMoved (hb : p.brkStackEffects = false) (h : RowEffect p e s t)
    (hlen : e.mnemonic = .brk → e.length = 1) : PcMoved e.length s t := by
  cases h with
  | lda | sta | adc | tax | inx => exact pcMoved_advance s e.length
  | brk hm => rw [hb, hlen hm]; exact pcMoved_advance s 1

theorem lookup_length_of_brk {op : Byte} (hl : OpTable.lookup defaultTable op = some e) (hm : e.mnemonic = .brk) :
    e.length = 1 := by
  obtain rfl : op = 0x00#8 := (lookup_mnemonic_eq_brk_iff op).1 (by rw [hl, Option.map_some, hm])
  obtain rfl : _ = e := Option.some.inj hl
  rfl

theorem stepWith_brk_of_stackEffects (hr : s.run = .running)
    (hl : OpTable.lookup p.optable (s.readByte s.pc) = some e) (hm : e.mnemonic = .brk)
    (hb : p.brkStackEffects = true) : stepWith p s = .next s.brkStack := by
  have he := RowEffect.brk (p := p) (s := s) hm
  rw [hb] at he
  exact stepWith_of_rowEffect hr hl he

end

/-! The cells of the stack page (10_state.md R29) -/

/-- The cell a stack pointer names, by its number: the sum stays inside the page. -/
theorem toNat_stackCell (v : Byte) : (Config.stackPage + zext16 v).toNat = 0x100 + v.toNat := by
  have hv := v.isLt
  rw [BitVec.toNat_add, toNat_zext16]
  simp only [Config.stackPage, BitVec.toNat_ofNat]
  omega

theorem stackCell_ne {v w : Byte} (h : v ≠ w) : Config.stackPage + zext16 v ≠ Config.stackPage + zext16 w := by
  rwa [ne_eq, BitVec.toNat_eq, toNat_stackCell, toNat_stackCell, Nat.add_left_cancel_iff, ← BitVec.toNat_eq]

theorem ne_stackCell {v : Byte} {w : Word} {n : Nat} (hv : v.toNat = n) (hw : w.toNat ≠ 0x100 + n) :
    w ≠ Config.stackPage + zext16 v := by
  rintro rfl
  exact hw (hv ▸ toNat_stackCell v)

theorem State.byteAt_stackCell (s : State) {v : Byte} {n : Nat} (hv : v.toNat = n) :
    s.byteAt (0x100 + n) = s.readByte (Config.stackPage + zext16 v) := by
  rw [← hv, ← toNat_stackCell, State.byteAt_toNat]

/-! The three pushes -/

section
variable (s : State)

theorem State.brkPush_readByte_first :
    s.brkPush.readByte (Config.stackPage + zext16 s.sp) = highByte (s.pc + 2#16) := by
  have hthird : s.sp ≠ s.sp - 1#8 - 1#8 := by bv_omega
  have hsecond : s.sp ≠ s.sp - 1#8 := by bv_omega
  rw [State.brkPush_readByte, if_neg (stackCell_ne hthird), if_neg (stackCell_ne hsecond), if_pos rfl]

theorem State.brkPush_readByte_second :
    s.brkPush.readByte (Config.stackPage + zext16 (s.sp - 1#8)) = lowByte (s.pc + 2#16) := by
  have hthird : s.sp - 1#8 ≠ s.sp - 1#8 - 1#8 := by bv_omega
  rw [State.brkPush_readByte, if_neg (stackCell_ne hthird), if_pos rfl]

theorem State.brkPush_readByte_third :
    s.brkPush.readByte (Config.stackPage + zext16 (s.sp - 1#8 - 1#8)) = s.p ||| 0x30#8 := by
  rw [State.brkPush_readByte, if_pos rfl]

theorem State.brkPush_readByte_other {w : Word} (hfirst : w ≠ Config.stackPage + zext16 s.sp)
    (hsecond : w ≠ Config.stackPage + zext16 (s.sp - 1#8))
    (hthird : w ≠ Config.stackPage + zext16 (s.sp - 1#8 - 1#8)) : s.brkPush.readByte w = s.readByte w := by
  rw [State.brkPush_readByte, if_neg hthird, if_neg hsecond, if_neg hfirst]

theorem State.brkPush_readByte_above_stackPage {w : Word} (hw : 0x200 ≤ w.toNat) :
    s.brkPush.readByte w = s.readByte w := by
  have hne : ∀ v, w ≠ Config.stackPage + zext16 v := fun v => ne_stackCell rfl (by have hv := v.isLt; omega)
  exact s.brkPush_readByte_other (hne _) (hne _) (hne _)

/-! `pc` and status after BRK with stack effects -/

/-- The vector lies above the stack page, so BRK reads there what stood there before its pushes. -/
theorem State.toNat_brkStack_pc : s.brkStack.pc.toNat = s.wordAt 0xFFFE := by
  have hlow := s.brkPush_readByte_above_stackPage (w := Config.brkVector) (by decide)
  have hhigh := s.brkPush_readByte_above_stackPage (w := Config.brkVector + 1#16) (by decide)
  rw [State.brkStack_pc, State.readWord, hlow, hhigh]
  exact s.toNat_readWord Config.brkVector

end

theorem getLsbD_brkStatus (p : Byte) (n : Nat) :
    (putFlag (putFlag p .brk true) .interruptDisable true).getLsbD n = (p.getLsbD n || decide (n = 2 ∨ n = 4)) := by
  simp only [getLsbD_putFlag, Flag.bit]
  split_ifs with h2 h4
  · simp [h2]
  · simp [h4]
  · simp [h2, h4]

end Sys2Proof.Machine
end

section
/-! PROOFS. The statements about BRK and the flow of control (45_control_brk.md). -/

namespace Sys2Proof.Machine

/-- Settles O15: the three cells of the pushes are different, at a wrapping stack pointer too, and none is a byte of the
vector. -/
theorem brkWithStackEffectsPushesAndHalts : Obligations.BrkWithStackEffectsPushesAndHalts := by
  intro p e s hb hr hl hm
  have hret : (s.pc + 2#16).toNat = (s.pc.toNat + 2) % 65536 := BitVec.toNat_add _ _
  have hsecond : (s.sp - 1#8).toNat = (s.sp.toNat + 255) % 256 := by bv_omega
  have hthird : (s.sp - 1#8 - 1#8).toNat = (s.sp.toNat + 254) % 256 := by bv_omega
  obtain ⟨ha, hx, hy, hrun, hsp, hp⟩ := s.brkStack_regs
  refine ⟨s.brkStack, stepWith_brk_of_stackEffects hr hl hm hb, ?high, ?low, ?status,
    fun addr h1 h2 h3 => ?frame, ?sp, fun n _ => ?bits, s.toNat_brkStack_pc, hrun, ha, hx, hy⟩
  case high =>
    rw [State.byteAt_stackCell _ rfl, s.brkStack_readByte, s.brkPush_readByte_first, toNat_highByte, hret]
  case low =>
    rw [State.byteAt_stackCell _ hsecond, s.brkStack_readByte, s.brkPush_readByte_second, toNat_lowByte, hret]
  case status =>
    rw [State.byteAt_stackCell _ hthird, s.brkStack_readByte, s.brkPush_readByte_third]
  case frame =>
    rw [s.brkStack_readByte]
    exact s.brkPush_readByte_other (ne_stackCell rfl h1) (ne_stackCell hsecond h2) (ne_stackCell hthird h3)
  case sp => rw [hsp]; bv_omega
  case bits => rw [hp, getLsbD_brkStatus]

/-- Settles O36: a property of the row at `pc`; BRK's row has length 1, as BRK advances. -/
theorem pcMovesByTheRowsLength : Obligations.PcMovesByTheRowsLength := by
  intro s t e hl h
  obtain ⟨-, e', hl', he⟩ := step_eq_next_iff.1 h
  obtain rfl : e' = e := Option.some.inj (hl'.symm.trans hl)
  exact he.pcMoved rfl (lookup_length_of_brk hl)

/-- Settles O14: the default parameters have no stack effects. -/
theorem brkHaltsAndChangesNothingElse : Obligations.BrkHaltsAndChangesNothingElse :=
  fun s => ⟨rfl, _, rfl, s.brkHalt_effect⟩

end Sys2Proof.Machine
end

section
/-! PROOFS. A run in terms of its steps, what the fetch decodes, and the run of a memory full of INX (46_execution_loop.md R160,
R161, R165, R166). -/

namespace Sys2Proof.Machine

/-! The run, one step at a time -/

section
variable {p : Params} {s t : State}

theorem stepWith_of_halted (h : s.run = .halted) : stepWith p s = .refused .halted := by
  simp only [stepWith, h, noStep]

theorem stepWith_of_running (h : s.run = .running) : stepWith p s = outcomeOf (stepRunning p s) := by
  simp only [stepWith, h]

theorem outcomeOf_eq_next_iff {r : Except Fault State} : outcomeOf r = .next t ↔ r = .ok t := by
  cases r <;> simp [outcomeOf]

theorem outcomeOf_eq_fault_iff {r : Except Fault State} {f : Fault} : outcomeOf r = .fault f ↔ r = .error f := by
  cases r <;> simp [outcomeOf]

theorem outcomeOf_ne_refused (r : Except Fault State) (why : Refusal) : outcomeOf r ≠ .refused why := by
  cases r <;> simp [outcomeOf]

/-- A running core is never refused a step: its step is a next state or a fault (R160). -/
theorem run_eq_halted_of_stepWith_refused {why : Refusal} (h : stepWith p s = .refused why) : s.run = .halted := by
  cases hr : s.run with
  | halted => rfl
  | running => exact absurd (stepWith_of_running hr ▸ h) (outcomeOf_ne_refused _ why)

theorem run_eq_running_of_stepWith_fault {f : Fault} (h : stepWith p s = .fault f) : s.run = .running := by
  cases hr : s.run with
  | halted => simp [stepWith_of_halted hr] at h
  | running => rfl

theorem runFor_zero_of_running (h : s.run = .running) : runFor p 0 s = .stillRunning s := by
  simp only [runFor, h]

theorem runFor_succ_of_next (n : Nat) (h : stepWith p s = .next t) : runFor p (n + 1) s = runFor p n t := by
  obtain ⟨hr, -⟩ := stepWith_next h
  rw [stepWith_of_running hr, outcomeOf_eq_next_iff] at h
  rw [runFor_succ_of_running hr, h]

theorem runFor_succ_of_fault (n : Nat) {f : Fault} (h : stepWith p s = .fault f) :
    runFor p (n + 1) s = .faulted f s := by
  have hr := run_eq_running_of_stepWith_fault h
  rw [stepWith_of_running hr, outcomeOf_eq_fault_iff] at h
  rw [runFor_succ_of_running hr, h]

end

/-- A run's result carried on for `n` more steps: a run that has ended stays as it ended. -/
def RunResult.continueFor (p : Params) (n : Nat) : RunResult → RunResult
  | .stillRunning t => runFor p n t
  | .halted t => .halted t
  | .faulted f t => .faulted f t

/-- By the steps of the first run, each of which is also the first step of the whole run. -/
theorem runFor_add (p : Params) (m n : Nat) (s : State) :
    runFor p (m + n) s = (runFor p m s).continueFor p n := by
  induction m generalizing s with
  | zero =>
    cases hr : s.run with
    | halted => rw [runFor_of_halted hr, runFor_of_halted hr, RunResult.continueFor]
    | running => rw [runFor_zero_of_running hr, Nat.zero_add, RunResult.continueFor]
  | succ m ih =>
    rw [Nat.add_right_comm]
    cases hs : stepWith p s with
    | next t => rw [runFor_succ_of_next _ hs, runFor_succ_of_next _ hs, ih]
    | fault f => rw [runFor_succ_of_fault _ hs, runFor_succ_of_fault _ hs, RunResult.continueFor]
    | refused r =>
      have hr := run_eq_halted_of_stepWith_refused hs
      rw [runFor_of_halted hr, runFor_of_halted hr, RunResult.continueFor]

/-! What the fetch decodes -/

section
variable {s : State} {i : Instr}

theorem State.getElem_fetchBytes (s : State) {k : Nat} (hk : k < s.fetchBytes.length) :
    s.fetchBytes[k] = s.readByte (s.pc + BitVec.ofNat 16 k) := by
  match k, hk with
  | 0, _ => simp [State.fetchBytes]
  | 1, _ | 2, _ => rfl

/-- The fetch decodes the instruction whose encoding stands at `pc`. -/
theorem fetchInstr_eq_ok_iff : s.fetchInstr = .ok i ↔ encode i = s.fetchBytes.take i.length :=
  decodeOp_eq_ok_iff

theorem fetchInstr_of_decode {rest : List Byte} (h : decode s.fetchBytes = .ok (i, rest)) : s.fetchInstr = .ok i := by
  rw [fetchInstr_eq_ok_iff, decode_eq_ok_iff.1 h, List.take_left' (length_encode i)]

theorem fetchInstr_of_bytes
    (h : ∀ k, k < i.length → s.readByte (s.pc + BitVec.ofNat 16 k) = (encode i).getD k 0x00#8) :
    s.fetchInstr = .ok i := by
  have hlen : (encode i).length = (s.fetchBytes.take i.length).length := by
    rw [length_encode, List.length_take_of_le i.length_le_three]
  rw [fetchInstr_eq_ok_iff]
  refine List.ext_getElem hlen fun k hk hk' => ?_
  rw [List.getElem_take, s.getElem_fetchBytes, h k (length_encode i ▸ hk), List.getD_eq_getElem _ _ hk]

end

/-! Memory full of INX -/

theorem PcMoved.trans {m n : Nat} {s u t : State} (h : PcMoved m s u) (h' : PcMoved n u t) : PcMoved (m + n) s t := by
  simp only [PcMoved] at *
  omega

theorem stepWith_inxOpcode {s : State} (hr : s.run = .running) (hop : s.readByte s.pc = 0xE8#8) :
    ∃ t, stepWith defaultParams s = .next t ∧ LoadsX (inc8 s.x) 1 s t := by
  have hl : OpTable.lookup defaultParams.optable (s.readByte s.pc) = some ⟨.inx, .noneAddressing, 1, ⟨2, false⟩⟩ := by
    rw [hop]; rfl
  exact stepWith_inx hr hl rfl

/-- What `n` executions of INX change and keep. -/
def IncrementsXTimes (n : Nat) (s t : State) : Prop :=
  t.x.toNat = (s.x.toNat + n) % 256 ∧ PcMoved n s t ∧ t.a = s.a ∧ t.y = s.y ∧ MemKept s t

theorem incrementsXTimes_zero (s : State) : IncrementsXTimes 0 s s :=
  ⟨(Nat.mod_eq_of_lt s.x.isLt).symm, (Nat.mod_eq_of_lt s.pc.isLt).symm, rfl, rfl, fun _ => rfl⟩

/-- One INX in front of `n` others. -/
theorem IncrementsXTimes.succ {n : Nat} {s u t : State} (hinx : LoadsX (inc8 s.x) 1 s u)
    (h : IncrementsXTimes n u t) : IncrementsXTimes (n + 1) s t := by
  obtain ⟨hux, -, hua, huy, -, -, hupc, humem⟩ := hinx
  obtain ⟨hx, hpc, ha, hy, hmem⟩ := h
  refine ⟨?_, Nat.add_comm 1 n ▸ hupc.trans hpc, ha.trans hua, hy.trans huy,
    fun addr => (hmem addr).trans (humem addr)⟩
  rw [hx, hux, toNat_inc8]
  omega

/-- The step changes neither memory nor the run state, so the next byte is INX again. -/
theorem exists_runFor_of_inx_everywhere {s : State} (hr : s.run = .running) (hmem : ∀ addr, s.readByte addr = 0xE8#8)
    (n : Nat) : ∃ t, runFor defaultParams n s = .stillRunning t ∧ IncrementsXTimes n s t := by
  induction n generalizing s with
  | zero => exact ⟨s, runFor_zero_of_running hr, incrementsXTimes_zero s⟩
  | succ n ih =>
    obtain ⟨u, hstep, hinx⟩ := stepWith_inxOpcode hr (hmem s.pc)
    have ⟨_, _, _, _, _, hrun, _, hkept⟩ := hinx
    obtain ⟨t, ht, hincr⟩ := ih (hrun.trans hr) fun addr => (hkept addr).trans (hmem addr)
    exact ⟨t, (runFor_succ_of_next n hstep).trans ht, hincr.succ hinx⟩

/-! Halted -/

/-- The host's writes and launch states leave the run state, and a Halted core has no step (R161, 70_reset_and_hazards.md
R206, R209). -/
theorem hostStep_of_halted {p : Params} {op : HostOp} {s t : State} (hr : s.run = .halted)
    (h : hostStep p op s = .next t) :
    t.run = .halted ∨ op = .create ∨ op = .reset ∨ ∃ program, op = .load program := by
  cases op with
  | create => exact .inr (.inl rfl)
  | reset => exact .inr (.inr (.inl rfl))
  | load program => exact .inr (.inr (.inr ⟨program, rfl⟩))
  | writeByte | writeWord | launch => cases h; exact .inl hr
  | step => simp [hostStep, stepWith_of_halted hr] at h

end Sys2Proof.Machine
end

section
/-! PROOFS. The statements about the Execution Loop (46_execution_loop.md). -/

namespace Sys2Proof.Machine

/-- Settles O21: by the row at `pc`, whose effect is both the meaning of the decoded instruction and the table's dispatch. -/
theorem stepRefinesTheExecutionLoop : Obligations.StepRefinesTheExecutionLoop :=
  step_eq_stepWith

/-- Settles O43: by induction on the steps of the first run. -/
theorem runIsItsSteps : Obligations.RunIsItsSteps := by
  refine ⟨fun p m n s => ?_, fun _ n _ _ => runFor_succ_of_next n, fun _ n _ _ => runFor_succ_of_fault n⟩
  rw [runFor_add]
  cases runFor p m s <;> rfl

/-- Settles O44: after any number of steps the run has not ended, so it has not ended in a fault. -/
theorem memoryFullOfInxNeverHalts : Obligations.MemoryFullOfInxNeverHalts := by
  intro s hr hmem n
  obtain ⟨t, ht, hincr⟩ := exists_runFor_of_inx_everywhere hr hmem n
  have hsafe : SafeFor defaultParams n s := fun f u => by rw [ht]; exact nofun
  exact ⟨hsafe, t, ht, hincr⟩

/-- Settles O16: either premise says that the encoding stands at `pc`, so the fetch decodes it. -/
theorem stepRunsTheDecodedInstruction : Obligations.StepRunsTheDecodedInstruction :=
  ⟨fun _ _ _ hr _ h => step_of_fetchInstr hr (fetchInstr_of_decode h),
    fun _ _ hr _ h => step_of_fetchInstr hr (fetchInstr_of_bytes h)⟩

/-- Settles O38: by the host's operation. -/
theorem haltedCoreHasNoStep : Obligations.HaltedCoreHasNoStep := fun _ s hr =>
  ⟨(step_eq_stepWith s).trans (stepWith_of_halted hr), stepWith_of_halted hr, fun _ _ => hostStep_of_halted hr⟩

end Sys2Proof.Machine
end

section
/-! PROOFS. The faults of the table-driven step, in both directions (60_exceptions.md R181, R182, R185). -/

namespace Sys2Proof.Machine

/-- The resolver is the one source of a fault under an operand-consuming body. -/
theorem withOperand_eq_error_iff {e : OpRecord} {op : Byte} {a0 : Word} {s : State} {body : State → Word → State}
    {f : Fault} :
    withOperand e op a0 s body = .error f ↔ e.mode = .noneAddressing ∧ f = .addressingModeFault op a0 := by
  rw [← effectiveAddress_eq_none (s := s)]
  cases hea : effectiveAddress e.mode s with
  | none => simp [withOperand, hea, eq_comm]
  | some ea => simp [withOperand, hea]

/-- The counterpart of `dispatchRow_ok` for faults. -/
theorem dispatchRow_eq_error_iff {p : Params} {e : OpRecord} {op : Byte} {a0 : Word} {s : State} {f : Fault} :
    dispatchRow p e op a0 s = .error f ↔
      (e.mnemonic = .lda ∨ e.mnemonic = .sta ∨ e.mnemonic = .adc) ∧ e.mode = .noneAddressing ∧
        f = .addressingModeFault op a0 := by
  cases hm : e.mnemonic with
  | lda | sta | adc => simp [dispatchRow, hm, withOperand_eq_error_iff]
  | tax | inx | brk => simp [dispatchRow, hm]

/-- The body of the loop where the byte at `pc` has no row. -/
theorem stepRunning_of_lookup_none {p : Params} {s : State}
    (hl : OpTable.lookup p.optable (s.readByte s.pc) = none) :
    stepRunning p s = .error (.illegalOpcode (s.readByte s.pc) s.pc) := by
  simp only [stepRunning, hl]

/-- The body of the loop where the byte at `pc` has a row. -/
theorem stepRunning_of_lookup {p : Params} {e : OpRecord} {s : State}
    (hl : OpTable.lookup p.optable (s.readByte s.pc) = some e) :
    stepRunning p s = dispatchRow p e (s.readByte s.pc) s.pc (s.advance 1) := by
  simp only [stepRunning, hl]

/-- The faults of a running step: by whether the byte at `pc` has a row. -/
theorem stepWith_eq_fault_iff {p : Params} {s : State} (hr : s.run = .running) {f : Fault} :
    stepWith p s = .fault f ↔
      (OpTable.lookup p.optable (s.readByte s.pc) = none ∧ f = .illegalOpcode (s.readByte s.pc) s.pc) ∨
      (∃ e, OpTable.lookup p.optable (s.readByte s.pc) = some e ∧
        (e.mnemonic = .lda ∨ e.mnemonic = .sta ∨ e.mnemonic = .adc) ∧ e.mode = .noneAddressing ∧
        f = .addressingModeFault (s.readByte s.pc) s.pc) := by
  rw [stepWith_of_running hr, outcomeOf_eq_fault_iff]
  cases hl : OpTable.lookup p.optable (s.readByte s.pc) with
  | none => simp [stepRunning_of_lookup_none hl, eq_comm]
  | some e => simp [stepRunning_of_lookup hl, dispatchRow_eq_error_iff]

/-! The bytes outside a table -/

theorem lookup_isSome_iff {t : OpTable} {op : Byte} :
    (OpTable.lookup t op).isSome = true ↔ op ∈ t.map Prod.fst := by
  induction t with
  | nil => simp [OpTable.lookup]
  | cons r t ih =>
    by_cases hop : r.1 = op
    · simp [OpTable.lookup, hop]
    · rw [OpTable.lookup, if_neg hop, ih, List.map_cons, List.mem_cons, or_iff_right (Ne.symm hop)]

/-- The byte values with a row are the opcodes of the table. -/
theorem filter_lookup_isSome_perm {t : OpTable} (h : (t.map Prod.fst).Nodup) :
    ((List.range 256).filter fun n => (OpTable.lookup t (BitVec.ofNat 8 n)).isSome).Perm
      ((t.map Prod.fst).map BitVec.toNat) := by
  refine (List.perm_ext_iff_of_nodup (List.nodup_range.filter _) (h.map fun _ _ => BitVec.eq_of_toNat_eq)).2 fun n => ?_
  rw [List.mem_filter, List.mem_range, lookup_isSome_iff, List.mem_map (f := BitVec.toNat)]
  constructor
  · rintro ⟨hn, hmem⟩
    exact ⟨_, hmem, (BitVec.toNat_ofNat _ _).trans (Nat.mod_eq_of_lt hn)⟩
  · rintro ⟨op, hmem, rfl⟩
    exact ⟨op.isLt, by rwa [BitVec.ofNat_toNat, BitVec.setWidth_eq]⟩

/-- A byte value has a row or has none. -/
theorem length_filter_lookup_isNone {t : OpTable} (h : (t.map Prod.fst).Nodup) :
    ((List.range 256).filter fun n => (OpTable.lookup t (BitVec.ofNat 8 n)).isNone).length = 256 - t.length := by
  have hsplit := (List.range 256).length_eq_length_filter_add
    fun n => (OpTable.lookup t (BitVec.ofNat 8 n)).isSome
  have hsome := (filter_lookup_isSome_perm h).length_eq
  simp only [Option.not_isSome, List.length_range, List.length_map] at hsplit hsome
  omega

end Sys2Proof.Machine
end

section
/-! PROOFS. The statements about the exceptions (60_exceptions.md). -/

namespace Sys2Proof.Machine

/-- Settles O20: by the faults of the fixed step; the default table has 26 distinct opcodes (30_encoding.md R67). -/
theorem illegalOpcodeExactlyOutsideTheTable : Obligations.IllegalOpcodeExactlyOutsideTheTable := by
  have hdistinct : (defaultTable.map Prod.fst).Nodup := by decide
  exact ⟨fun _ _ hr => step_eq_fault_iff.trans (and_iff_right hr), length_filter_lookup_isNone hdistinct⟩

/-- Settles O22: a byte without a row faults by itself, and a row faults exactly when its resolver does. -/
theorem stepFaultsAreExactlyTheTwo : Obligations.StepFaultsAreExactlyTheTwo :=
  fun _ _ _ hr => stepWith_eq_fault_iff hr

/-- Settles O52: by the three constructors of a fault. -/
theorem faultCodesAreOneTwoThree : Obligations.FaultCodesAreOneTwoThree := by
  refine ⟨fun _ _ => rfl, fun _ _ => rfl, fun _ => rfl, fun f => ?_⟩
  cases f with
  | illegalOpcode op addr => exact .inl rfl
  | addressingModeFault op addr => exact .inr (.inl rfl)
  | imageTooLarge n => exact .inr (.inr rfl)

end Sys2Proof.Machine
end

section
/-! PROOFS. Creation, reset and load, each as the state it answers (70_reset_and_hazards.md R200, R202, R204). -/

namespace Sys2Proof.Machine

/-! Creation -/

/-- The empty memory reads 0x00 at every address. -/
theorem isCreated_createWith (p : Params) : IsCreated p (createWith p) :=
  ⟨rfl, rfl, rfl, rfl, rfl, fun _ => rfl, rfl, fun _ => rfl⟩

/-! Reset -/

theorem toNat_resetWith_pc (p : Params) (s : State) : (resetWith p s).pc.toNat = s.wordAt 0xFFFC :=
  s.toNat_readWord Config.resetVector

theorem resetWith_sp {p : Params} (hb : p.brkStackEffects = true) (s : State) : (resetWith p s).sp = p.spReset :=
  if_pos hb

theorem memKept_resetWith (p : Params) (s : State) : MemKept s (resetWith p s) := fun _ => rfl

/-! Load -/

/-- What `load` answers for an image that fits. -/
def State.loaded (s : State) (program : List Byte) : State :=
  (((s.writeWord Config.resetVector Config.romBase).placeBytes Config.romBase program).setPc Config.romBase).setRun
    .running

section
variable {program : List Byte} (s : State)

theorem load_of_length_le (h : program.length ≤ 0x8000) : load program s = .ok (s.loaded program) :=
  if_neg h.not_gt

theorem load_of_length_gt (h : program.length > 0x8000) : load program s = .error (.imageTooLarge program.length) :=
  if_pos h

theorem loadAndRun_of_length_le (p : Params) (fuel : Nat) (h : program.length ≤ 0x8000) :
    loadAndRun p fuel program s = runFor p fuel (resetWith p (s.loaded program)) := by
  simp only [loadAndRun, load_of_length_le s h]

theorem loadAndRun_of_length_gt (p : Params) (fuel : Nat) (h : program.length > 0x8000) :
    loadAndRun p fuel program s = .faulted (.imageTooLarge program.length) s := by
  simp only [loadAndRun, load_of_length_gt s h]

theorem State.loaded_memCanonical (h : MemCanonical s) : MemCanonical (s.loaded program) :=
  State.wf_placeBytes _ _ (State.wf_writeWord _ _ h)

theorem load_memCanonical {t : State} (hs : MemCanonical s) (h : load program s = .ok t) : MemCanonical t := by
  rcases Nat.lt_or_ge 0x8000 program.length with hlong | hfits
  · simp [load_of_length_gt s hlong] at h
  · rw [load_of_length_le s hfits] at h
    cases h
    exact s.loaded_memCanonical hs

theorem State.loaded_regs :
    (s.loaded program).a = s.a ∧ (s.loaded program).x = s.x ∧ (s.loaded program).y = s.y ∧
      (s.loaded program).p = s.p ∧ (s.loaded program).sp = s.sp := by
  obtain ⟨ha, hx, hy, hp, -, -, hsp⟩ :=
    (s.writeWord Config.resetVector Config.romBase).placeBytes_regs Config.romBase program
  exact ⟨ha, hx, hy, hp, hsp⟩

/-- Outside the image only the vector is written. -/
theorem State.loaded_readByte_outside {w : Word} (hlen : program.length ≤ 0x8000)
    (hw : w.toNat < 0x8000 ∨ 0x8000 + program.length ≤ w.toNat) :
    (s.loaded program).readByte w = (s.writeWord Config.resetVector Config.romBase).readByte w := by
  refine State.readByte_placeBytes_other _ Config.romBase w program fun i hi => ?_
  rintro rfl
  rw [Config.romBase, BitVec.toNat_add, BitVec.toNat_ofNat, BitVec.toNat_ofNat] at hw
  omega

/-- The upper half of memory: the image's byte, and past the image's end what the vector's write left. -/
theorem State.loaded_byteAt (hlen : program.length ≤ 0x8000) {i : Nat} (hi : i < 0x8000) :
    (s.loaded program).byteAt (0x8000 + i) =
      program.getD i ((s.writeWord Config.resetVector Config.romBase).byteAt (0x8000 + i)) := by
  rcases Nat.lt_or_ge i program.length with himage | hpast
  · rw [List.getD_eq_getElem _ _ himage, State.byteAt, BitVec.ofNat_add]
    exact State.readByte_placeBytes_at _ Config.romBase program (by omega) i himage
  · rw [List.getD_eq_default _ _ hpast]
    refine s.loaded_readByte_outside hlen (.inr ?_)
    rw [BitVec.toNat_ofNat]
    omega

/-- The vector's bytes are 0x00 and 0x80 but where the image supplies them. -/
theorem State.loaded_byteAt_vector_low (hlen : program.length ≤ 0x8000) :
    (s.loaded program).byteAt 0xFFFC = program.getD 0x7FFC 0x00#8 := by
  have hlow : (s.writeWord Config.resetVector Config.romBase).byteAt 0xFFFC = 0x00#8 :=
    s.readByte_writeWord_low Config.resetVector Config.romBase
  rw [← hlow]
  exact s.loaded_byteAt hlen (i := 0x7FFC) (by decide)

theorem State.loaded_byteAt_vector_high (hlen : program.length ≤ 0x8000) :
    (s.loaded program).byteAt 0xFFFD = program.getD 0x7FFD 0x80#8 := by
  have hhigh : (s.writeWord Config.resetVector Config.romBase).byteAt 0xFFFD = 0x80#8 :=
    s.readByte_writeWord_high Config.resetVector Config.romBase
  rw [← hhigh]
  exact s.loaded_byteAt hlen (i := 0x7FFD) (by decide)

theorem State.loaded_readByte_kept {w : Word} (hlen : program.length ≤ 0x8000)
    (hw : w.toNat < 0x8000 ∨ 0x8000 + program.length ≤ w.toNat) (hlow : w.toNat ≠ 0xFFFC) (hhigh : w.toNat ≠ 0xFFFD) :
    (s.loaded program).readByte w = s.readByte w := by
  rw [s.loaded_readByte_outside hlen hw]
  exact s.readByte_writeWord_other _ (fun h => hlow (congrArg BitVec.toNat h)) fun h => hhigh (congrArg BitVec.toNat h)

/-- The vector that reset finds after `load`. -/
theorem State.loaded_wordAt_vector (hlen : program.length ≤ 0x8000) :
    (s.loaded program).wordAt 0xFFFC =
      256 * (program.getD 0x7FFD 0x80#8).toNat + (program.getD 0x7FFC 0x00#8).toNat := by
  rw [← s.loaded_byteAt_vector_low hlen, ← s.loaded_byteAt_vector_high hlen, State.wordAt]

end

end Sys2Proof.Machine
end

section
/-! PROOFS. The statements about creation, reset, load and the host (70_reset_and_hazards.md). -/

namespace Sys2Proof.Machine

/-- Settles O26: by the host's operation; creation lists no byte, launch and reset leave the list, and the others write it
through `writeByte`. -/
theorem hostOperationsKeepMemoryCanonical : Obligations.HostOperationsKeepMemoryCanonical := by
  intro p op s t hs h
  cases op with
  | create => cases h; exact resetStateMemoryIsCanonical
  | writeByte addr v => cases h; exact State.wf_writeByte addr v hs
  | writeWord addr v => cases h; exact State.wf_writeWord addr v hs
  | launch | reset => cases h; exact hs
  | load program => exact load_memCanonical s hs (outcomeOf_eq_next_iff.1 h)
  | step => exact stepWith_memCanonical hs h

/-- Settles O41: the image's bytes and the vector's are the upper half of memory after `load`. -/
theorem loadPlacesTheImageAndTheVector : Obligations.LoadPlacesTheImageAndTheVector := by
  refine fun program s => ⟨fun hlen => ?_, load_of_length_gt s⟩
  obtain ⟨ha, hx, hy, hp, hsp⟩ := s.loaded_regs (program := program)
  refine ⟨s.loaded program, load_of_length_le s hlen, fun i hi => ?image, fun hshort => ?low, fun hshort => ?high,
    fun _ => s.loaded_readByte_kept hlen, ha, hx, hy, hp, hsp, rfl, rfl⟩
  case image => rw [s.loaded_byteAt hlen (hi.trans_le hlen), List.getD_eq_getElem _ _ hi]
  case low => rw [s.loaded_byteAt_vector_low hlen, List.getD_eq_default _ _ hshort]
  case high => rw [s.loaded_byteAt_vector_high hlen, List.getD_eq_default _ _ hshort]

/-- Settles O42: the run starts from the reset of what `load` answers, whose vector the image may supply. -/
theorem loadAndRunStartsAtTheVector : Obligations.LoadAndRunStartsAtTheVector := by
  refine fun p fuel program s => ⟨fun hlen => ?_, loadAndRun_of_length_gt s p fuel⟩
  have hpc := (toNat_resetWith_pc p (s.loaded program)).trans (s.loaded_wordAt_vector hlen)
  exact ⟨s.loaded program, resetWith p (s.loaded program), load_of_length_le s hlen, rfl,
    loadAndRun_of_length_le s p fuel hlen, fun hb => resetWith_sp hb _, rfl, rfl, rfl, rfl, rfl, memKept_resetWith p _,
    hpc⟩

/-- Settles O48: reset reads the vector and nothing else of the old state. -/
theorem resetZeroesRegistersAndLoadsTheVector : Obligations.ResetZeroesRegistersAndLoadsTheVector := fun p s =>
  ⟨resetWith p s, rfl, rfl, rfl, rfl, rfl, toNat_resetWith_pc p s, rfl, memKept_resetWith p s,
    fun hb => resetWith_sp hb s⟩

/-- Settles O49: the byte at 0x0000 of the created machine is 0x00, the opcode of BRK. -/
theorem creationIsAllZeroAndHaltsWhenStepped : Obligations.CreationIsAllZeroAndHaltsWhenStepped := by
  obtain ⟨t, hstep, hrun, hpc, -⟩ :=
    stepWith_brk_of_no_stackEffects (p := defaultParams) (s := createWith defaultParams) rfl rfl rfl rfl
  exact ⟨isCreated_createWith, t, (step_eq_stepWith _).trans hstep, BitVec.eq_of_toNat_eq hpc, hrun⟩

/-- Settles O53: creation does not look at the old state. -/
theorem creatingAgainKeepsNothingOfTheOldMachine : Obligations.CreatingAgainKeepsNothingOfTheOldMachine :=
  fun p _ _ => ⟨createWith p, rfl, rfl, isCreated_createWith p⟩

end Sys2Proof.Machine
end
